-- ==== Sys2Proof/Word.lean ====
section
/-! DEFINITION. The word types of the core: 4-bit fields, bytes, 12-bit immediates and 16-bit words (R8, R9, R52). -/

namespace Sys2Proof

/-- A 4-bit slice of an instruction word (R12): the fields `x`, `y`, `n` and the group. -/
abbrev Nibble := BitVec 4

/-- A memory cell, a general register, a timer, the immediate `kk` (R14, R23, R31, R53). -/
abbrev Byte := BitVec 8

/-- The 12-bit address immediate `nnn` (R52). -/
abbrev Imm12 := BitVec 12

/-- An instruction word, `pc`, `I`, a stack slot (R12, R18, R21, R22). -/
abbrev Word := BitVec 16

end Sys2Proof
end

