-- ==== Sys2Proof/Syntax.lean ====
section
/-! DEFINITION. The instruction set as syntax: one constructor for each of the 34 rows of the opcode map (R60). -/

namespace Sys2Proof

/-- The 34 instructions, in the order of the opcode map (R60).
The field types are the widths of R52, so every value a constructor can hold is one its encoding admits (R54). -/
inductive Instr where
  /-- 00E0, `CLS` (R102) -/
  | cls
  /-- 00EE, `RET` (R75) -/
  | ret
  /-- 1nnn, `JP nnn` (R76) -/
  | jp (nnn : Imm12)
  /-- 2nnn, `CALL nnn` (R77) -/
  | call (nnn : Imm12)
  /-- 3xkk, `SE Vx, kk` (R78) -/
  | seImm (x : Nibble) (kk : Byte)
  /-- 4xkk, `SNE Vx, kk` (R79) -/
  | sneImm (x : Nibble) (kk : Byte)
  /-- 5xy0, `SE Vx, Vy` (R80) -/
  | seReg (x y : Nibble)
  /-- 6xkk, `LD Vx, kk` (R84) -/
  | ldImm (x : Nibble) (kk : Byte)
  /-- 7xkk, `ADD Vx, kk` (R85) -/
  | addImm (x : Nibble) (kk : Byte)
  /-- 8xy0, `LD Vx, Vy` (R86) -/
  | ldReg (x y : Nibble)
  /-- 8xy1, `OR Vx, Vy` (R87) -/
  | orReg (x y : Nibble)
  /-- 8xy2, `AND Vx, Vy` (R88) -/
  | andReg (x y : Nibble)
  /-- 8xy3, `XOR Vx, Vy` (R89) -/
  | xorReg (x y : Nibble)
  /-- 8xy4, `ADD Vx, Vy` (R90) -/
  | addReg (x y : Nibble)
  /-- 8xy5, `SUB Vx, Vy` (R91) -/
  | sub (x y : Nibble)
  /-- 8xy6, `SHR Vx, Vy` (R92); `y` is part of the word and is not read (R54) -/
  | shr (x y : Nibble)
  /-- 8xy7, `SUBN Vx, Vy` (R93) -/
  | subn (x y : Nibble)
  /-- 8xyE, `SHL Vx, Vy` (R94); `y` is part of the word and is not read (R54) -/
  | shl (x y : Nibble)
  /-- 9xy0, `SNE Vx, Vy` (R81) -/
  | sneReg (x y : Nibble)
  /-- Annn, `LD I, nnn` (R96) -/
  | ldI (nnn : Imm12)
  /-- Bnnn, `JP V0, nnn` (R82) -/
  | jpV0 (nnn : Imm12)
  /-- Cxkk, `RND Vx, kk` (R95) -/
  | rnd (x : Nibble) (kk : Byte)
  /-- Dxyn, `DRW Vx, Vy, n` (R103) -/
  | drw (x y n : Nibble)
  /-- Ex9E, `SKP Vx` (R109) -/
  | skp (x : Nibble)
  /-- ExA1, `SKNP Vx` (R110) -/
  | sknp (x : Nibble)
  /-- Fx07, `LD Vx, DT` (R112) -/
  | ldVxDT (x : Nibble)
  /-- Fx0A, `LD Vx, K` (R111) -/
  | ldVxK (x : Nibble)
  /-- Fx15, `LD DT, Vx` (R113) -/
  | ldDTVx (x : Nibble)
  /-- Fx18, `LD ST, Vx` (R114) -/
  | ldSTVx (x : Nibble)
  /-- Fx1E, `ADD I, Vx` (R97) -/
  | addI (x : Nibble)
  /-- Fx29, `LD F, Vx` (R98) -/
  | ldF (x : Nibble)
  /-- Fx33, `LD B, Vx` (R99) -/
  | ldB (x : Nibble)
  /-- Fx55, `LD [I], Vx` (R100) -/
  | ldMemVx (x : Nibble)
  /-- Fx65, `LD Vx, [I]` (R101) -/
  | ldVxMem (x : Nibble)
  deriving DecidableEq, Repr

/-- What an instruction word stands for (R62): one of the 34 instructions, or a no-op, which keeps its word. -/
inductive Fetched where
  | instr (i : Instr)
  | noOp (w : Word)
  deriving DecidableEq, Repr

/-- The parts of the no-op space, by group, as R61 lists them. -/
inductive NoOpGroup where
  | group0 | group5 | group8 | group9 | groupE | groupF
  deriving DecidableEq, Repr

/-- One row of the opcode map (R60): a word is the row's instruction exactly when `w AND mask = bits`. -/
structure OpcodeRow where
  mnemonic : String
  bits : Word
  mask : Word
  deriving DecidableEq, Repr

end Sys2Proof
end

