-- ==== Sys2Proof/WellFormed.lean ====
section
/-! DEFINITION. When a term of the syntax is one the encoding admits.
An instruction always is: its field types are the field widths of R52, and R54 makes every value of them legal.
A no-op is well formed only if its word lies in the no-op space of R61. -/

namespace Sys2Proof

/-- The part of the no-op space a word lies in, from the list of R61; `none` for the word of an instruction. -/
def noOpGroup (w : Word) : Option NoOpGroup :=
  let group := w.toNat / 4096
  let low := w.toNat % 16
  let kk := w.toNat % 256
  if group = 0x0 then
    if w.toNat ∈ [0x00E0, 0x00EE] then none else some .group0
  else if group = 0x5 then
    if low = 0 then none else some .group5
  else if group = 0x8 then
    if low ∈ [0x8, 0x9, 0xA, 0xB, 0xC, 0xD, 0xF] then some .group8 else none
  else if group = 0x9 then
    if low = 0 then none else some .group9
  else if group = 0xE then
    if kk ∈ [0x9E, 0xA1] then none else some .groupE
  else if group = 0xF then
    if kk ∈ [0x07, 0x0A, 0x15, 0x18, 0x1E, 0x29, 0x33, 0x55, 0x65] then none else some .groupF
  else none

/-- A fetched term is well formed when its encoding is a word that stands for it (R61, R62). -/
def Fetched.wellFormed : Fetched → Bool
  | .instr _ => true
  | .noOp w => (noOpGroup w).isSome

end Sys2Proof
end

