-- ==== Sys2Proof/Config.lean ====
section
/-! DEFINITION. What is fixed for the machine: the parameter values of R6, and the one free value, the random draw of R7. -/

namespace Sys2Proof.Config

/-- `MEM_SIZE` (R6, R31): addresses 0x000 to 0xFFF. -/
@[simp] abbrev memSize : Nat := 4096

/-- `NUM_V` (R6, R14). -/
@[simp] abbrev numV : Nat := 16

/-- `STACK_DEPTH` (R6, R22). -/
@[simp] abbrev stackDepth : Nat := 16

/-- `NUM_KEYS` (R6, R25). -/
@[simp] abbrev numKeys : Nat := 16

/-- `FB_WIDTH` (R6, R26). -/
@[simp] abbrev fbWidth : Nat := 64

/-- `FB_HEIGHT` (R6, R26). -/
@[simp] abbrev fbHeight : Nat := 32

/-- `FONT_BASE` (R6, R36). -/
@[simp] abbrev fontBase : Nat := 0x050

/-- `GLYPH_BYTES` (R6, R36). -/
@[simp] abbrev glyphBytes : Nat := 5

/-- `FONT_GLYPHS` x `GLYPH_BYTES` (R6). -/
@[simp] abbrev fontSize : Nat := 80

/-- `PROG_BASE`, also `PC_RESET` (R6, R35). -/
@[simp] abbrev progBase : Nat := 0x200

/-- `MAX_IMAGE` (R6, R138): 3584 bytes. -/
@[simp] abbrev maxImage : Nat := memSize - progBase

/-- `RandomDraw` (R7, R28, R95): the byte the n-th execution of Cxkk draws.
A free value: the constant has no body, so a claim about Cxkk holds for every draw sequence (log entry 1). -/
opaque randomByte : Nat → Byte

end Sys2Proof.Config
end

