-- ==== Sys2Proof/Machine/State.lean ====
section
/-! DEFINITION. The Machine record of R13 as plain data, its faults, and its state after construction (R29). -/

namespace Sys2Proof.Machine

open Sys2Proof

/-- Memory as a list of (address, byte) cells in one canonical form (`Memory.wf` in Ops.lean).
An address that is not listed reads as what construction put there (`resetByte` in Font.lean). -/
abbrev Memory := List Host.Cell

/-- The 64 x 32 plane of cells, `FB[x][y]` with column `x` and row `y`; `true` is lit (R26). -/
abbrev Framebuffer := Vector (Vector Bool 32) 64

/-- The Machine (R13), and one field of the model's own. -/
structure State where
  /-- `mem`: the 4096-byte address space (R31) -/
  mem : Memory
  /-- `V`: the registers V0 to VF (R14); VF is also the flag (R15, R30) -/
  v : Vector Byte 16
  /-- `I` (R21) -/
  i : Word
  /-- `pc` (R18) -/
  pc : Word
  /-- `S`: the slots of the call stack (R22) -/
  stack : Vector Word 16
  /-- `SP`: the number of entries on the stack, 0 to 16 (R22) -/
  sp : Fin 17
  /-- `DT` (R23) -/
  dt : Byte
  /-- `ST` (R24) -/
  st : Byte
  /-- `KEY`: the pressed state of each key (R25) -/
  key : Vector Bool 16
  /-- `FB` (R26) -/
  fb : Framebuffer
  /-- The model's own stand-in for `rng` (R28): how many random bytes have been drawn (log entry 1) -/
  draws : Nat
  deriving DecidableEq, Repr

/-- Where an out-of-range address came from (R44, R115). -/
inductive AccessSource where
  | fetch | index | sprite | key
  deriving DecidableEq, Repr

/-- The faults of a step (R115), with the `info` that R115 gives each. All three are the spec's own outcomes. -/
inductive Fault where
  /-- raised by 2nnn when `SP = 16`, with the address of the call (R117); safe: the step stops, as the spec says -/
  | stackOverflow (addr : Nat)
  /-- raised by 00EE when `SP = 0`, with the address of the return (R118); safe: the step stops, as the spec says -/
  | stackUnderflow (addr : Nat)
  /-- raised by the fetch, by Fx33, Fx55, Fx65, Dxyn, Ex9E and ExA1, with the first address that does not exist
  (R119 to R122); safe: the step stops, as the spec says -/
  | outOfBoundsAccess (source : AccessSource) (addr : Nat)
  deriving DecidableEq, Repr

/-- Refusals: an instruction without a meaning. The spec leaves none to refuse, and no step of this model refuses. -/
inductive Refusal where
  /-- raised by an arm of `exec` that has no meaning yet (none is left); safe: nothing can be proved of its next state -/
  | notModelled (mnemonic : String)
  deriving DecidableEq, Repr

/-- What a step or a meaning answers (R71): a next state for `Ok`, or a fault. -/
abbrev Result := Host.Outcome State Fault Refusal

/-- The state right after construction, with the default font (R29, R136).
No cell is listed, so every address reads as construction left it. -/
def State.reset : State where
  mem := []
  v := Vector.replicate 16 0
  i := 0
  pc := 0x200
  stack := Vector.replicate 16 0
  sp := 0
  dt := 0
  st := 0
  key := Vector.replicate 16 false
  fb := Vector.replicate 64 (Vector.replicate 32 false)
  draws := 0

end Sys2Proof.Machine
end

