-- ==== Sys2Proof/Machine/Font.lean ====
section
/-! DEFINITION. What construction leaves in memory: the default font table of R39, and 0 everywhere else (R29). -/

namespace Sys2Proof.Machine

open Sys2Proof

/-- The contents of a font table: 80 bytes, five for each digit (R7, R36). -/
abbrev Font := Vector Byte 80

/-- The rows 0 to 4 of each digit's glyph in the default font (R39; log entry 2). -/
def defaultFont : Font := #v[
  0xF0, 0x90, 0x90, 0x90, 0xF0,
  0x20, 0x60, 0x20, 0x20, 0x70,
  0xF0, 0x10, 0xF0, 0x80, 0xF0,
  0xF0, 0x10, 0xF0, 0x10, 0xF0,
  0x90, 0x90, 0xF0, 0x10, 0x10,
  0xF0, 0x80, 0xF0, 0x10, 0xF0,
  0xF0, 0x80, 0xF0, 0x90, 0xF0,
  0xF0, 0x10, 0x20, 0x40, 0x40,
  0xF0, 0x90, 0xF0, 0x90, 0xF0,
  0xF0, 0x90, 0xF0, 0x10, 0xF0,
  0xF0, 0x90, 0xF0, 0x90, 0x90,
  0xE0, 0x90, 0xE0, 0x90, 0xE0,
  0xF0, 0x80, 0x80, 0x80, 0xF0,
  0xE0, 0x90, 0x90, 0x90, 0xE0,
  0xF0, 0x80, 0xF0, 0x80, 0xF0,
  0xF0, 0x80, 0xF0, 0x80, 0x80]

/-- What an address reads as while nothing has been written there: the default font at 0x050 to 0x09F, and 0 at every
other address (R29, R36). A machine with another font differs from this by the cells it lists (`State.construct`). -/
def resetByte (a : Nat) : Byte :=
  if h : 0x050 ≤ a ∧ a < 0x0A0 then defaultFont[a - 0x050]'(by omega) else 0

end Sys2Proof.Machine
end

