-- ==== Sys2Proof/Machine/Ops.lean ====
section
/-! DEFINITION. The named operations over memory, registers, stack, timers and the random draw; the range check of an
access; raising a fault; the fetch stage and the timer tick. Every meaning reaches the state through these. -/

namespace Sys2Proof.Machine

open Sys2Proof

/-! ### Memory (R31, R43) -/

/-- `MemRead(a, 1)` (R10). An address at or above 4096 is never read: its fault comes first (R44). -/
def Memory.read : Memory → Nat → Byte
  | [], a => resetByte a
  | (k, b) :: m, a => if k = a then b else Memory.read m a

/-- `MemWrite(a, 1, v)` (R10), keeping the cells sorted and listing none that reads as construction left it. -/
def Memory.write : Memory → Nat → Byte → Memory
  | [], a, v => if v = resetByte a then [] else [(a, v)]
  | (k, b) :: m, a, v =>
    if a < k then
      if v = resetByte a then (k, b) :: m else (a, v) :: (k, b) :: m
    else if a = k then
      if v = resetByte a then m else (a, v) :: m
    else (k, b) :: Memory.write m a v

/-- Write a sequence of bytes at ascending addresses from `base` (R99, R100, R138). -/
def Memory.writeBytes (m : Memory) (base : Nat) : List Byte → Memory
  | [] => m
  | b :: bs => Memory.writeBytes (m.write base b) (base + 1) bs

/-- The canonical form from address `lo` up: addresses strictly rising, all of them below 4096, and no cell that holds
what its address reads as unlisted. -/
def Memory.wfFrom (lo : Nat) : Memory → Bool
  | [] => true
  | (a, b) :: m => decide (lo ≤ a) && decide (a < Config.memSize) && decide (b ≠ resetByte a) && Memory.wfFrom (a + 1) m

/-- The canonical form of memory: two well-formed memories that read alike are the same list. -/
def Memory.wf (m : Memory) : Bool := Memory.wfFrom 0 m

/-! ### Faults and the range check -/

/-- Raise a fault (R116, R127): the step ends with it, and nothing of the step is committed (R72).
The core has no handler, saved state or mode, so this is all there is to taking an exception. -/
def raise (f : Fault) : Result := .fault f

/-- Whether `count` single-byte accesses from `base` all lie below 4096, with the addresses computed as unbounded
naturals (R44). No access at all is always in range. -/
def inRange (base count : Nat) : Bool := decide (count = 0 ∨ base + count ≤ Config.memSize)

/-- The first address of a failing range that is at or above 4096, `max(base, 4096)` (R120, R121). -/
def firstBad (base : Nat) : Nat := max base Config.memSize

/-! ### General registers (R14, R15) -/

/-- `V[x]`. -/
def State.readV (s : State) (x : Nibble) : Byte := s.v[x.toNat]'x.isLt

/-- `V[x] <- b`. No register is hard-wired (R17). -/
def State.writeV (s : State) (x : Nibble) (b : Byte) : State :=
  { s with v := s.v.set x.toNat b x.isLt }

/-- `FLAG_REG` (R6): VF, register 15. -/
def vF : Nibble := 15#4

/-! ### The other registers -/

/-- `pc <- target` (R10). -/
def State.setPc (s : State) (target : Word) : State := { s with pc := target }

/-- Pass over the next instruction word (R12, R18): add 2 to the already advanced pc. -/
def State.skip (s : State) : State := s.setPc (s.pc + 2)

/-- `A`, the address of the instruction in execution: `pc` holds `A + 2` (R11, R66). -/
def State.instrAddr (s : State) : Word := s.pc - 2

/-- `I <- w` (R21). -/
def State.setI (s : State) (w : Word) : State := { s with i := w }

/-- `DT <- b` (R23). -/
def State.setDT (s : State) (b : Byte) : State := { s with dt := b }

/-- `ST <- b` (R24). -/
def State.setST (s : State) (b : Byte) : State := { s with st := b }

/-- Replace memory. -/
def State.setMem (s : State) (m : Memory) : State := { s with mem := m }

/-- Replace the framebuffer (R26). -/
def State.setFB (s : State) (fb : Framebuffer) : State := { s with fb := fb }

/-! ### The call stack (R22) -/

/-- Push: `S[SP] <- w; SP <- SP + 1`, for `SP < 16`; the caller raises the fault of `none`. -/
def State.push? (s : State) (w : Word) : Option State :=
  if h : s.sp.val < 16 then
    some { s with stack := s.stack.set s.sp.val w h, sp := ⟨s.sp.val + 1, by omega⟩ }
  else none

/-- Pop: `SP <- SP - 1; value <- S[SP]`, for `SP > 0`; the slot keeps its value. The caller raises the fault of `none`. -/
def State.pop? (s : State) : Option (Word × State) :=
  if h : 0 < s.sp.val then
    some (s.stack[s.sp.val - 1]'(by omega), { s with sp := ⟨s.sp.val - 1, by omega⟩ })
  else none

/-! ### The random draw (R28, R95) -/

/-- `draw RandomByte()` (R10): a fresh value under no law, and the machine that has drawn it. -/
def State.drawRandom (s : State) : Byte × State :=
  (Config.randomByte s.draws, { s with draws := s.draws + 1 })

/-! ### Fetch and tick (R64) -/

/-- The fetch stage (R65): the word at `pc`, high byte first, or the fault of R119. -/
def State.fetch (s : State) : Except Fault Word :=
  if inRange s.pc.toNat 2 then
    .ok (wordOfBytes (s.mem.read s.pc.toNat) (s.mem.read (s.pc.toNat + 1)))
  else .error (.outOfBoundsAccess .fetch (firstBad s.pc.toNat))

/-- The advance of `pc` by 2 that follows the fetch, before dispatch (R66). -/
def State.advance (s : State) : State := s.setPc (s.pc + 2)

/-- Store a word where the next fetch reads it, high byte first (R40): at `pc`.
Where no fetch is possible at `pc` (R65), `pc` is first put at the entry address 0x200 (R35). -/
def State.placeWord (s : State) (w : Word) : State :=
  let t := if inRange s.pc.toNat 2 then s else s.setPc (BitVec.ofNat 16 Config.progBase)
  t.setMem (t.mem.writeBytes t.pc.toNat [highByte w, lowByte w])

/-- One timer's tick (R70): down by 1 while it is nonzero. -/
def tickTimer (b : Byte) : Byte := if b.toNat > 0 then b - 1 else b

/-- The tick stage, after every execute stage that did not fault (R70). -/
def State.tick (s : State) : State := { s with dt := tickTimer s.dt, st := tickTimer s.st }

end Sys2Proof.Machine
end

