-- ==== Sys2Proof/Machine/Flags.lean ====
section
/-! DEFINITION. The flag computations (R83(e), R106) and the order of a result and its flag (R15, R83(c)). -/

namespace Sys2Proof.Machine

open Sys2Proof

/-- A condition as a flag byte: 1 or 0. -/
def flagByte (c : Bool) : Byte := if c then 1 else 0

/-- The carry of 8xy4: 1 iff `a + b > 255` (R83(e), R90). -/
def carryFlag (a b : Byte) : Byte := flagByte (decide (a.toNat + b.toNat > 255))

/-- The NOT-borrow of `a - b`: 1 iff `a > b`, strictly (R83(e), R91, R93). -/
def notBorrowFlag (a b : Byte) : Byte := flagByte (decide (a.toNat > b.toNat))

/-- The shift-out of 8xy6, `a[0]` (R92). -/
def shiftOutRight (a : Byte) : Byte := flagByte (a.getLsbD 0)

/-- The shift-out of 8xyE, `a[7]` (R94). -/
def shiftOutLeft (a : Byte) : Byte := flagByte (a.getLsbD 7)

/-- Write a result to `V[x]` and then its flag to `VF`, the last write (R15, R83(c)).
With `x = 15` the flag replaces the result (R143). -/
def State.writeResultFlag (s : State) (x : Nibble) (result flag : Byte) : State :=
  (s.writeV x result).writeV vF flag

end Sys2Proof.Machine
end

