-- ==== Sys2Proof/Machine/Alu.lean ====
section
/-! DEFINITION. The register file and the 8-bit ALU (R83 to R95).
Results are reduced modulo 256 (R83(a)); every operand is read from the state the instruction starts in (R83(b)). -/

namespace Sys2Proof.Machine

open Sys2Proof

/-- 6xkk, `LD Vx, kk` (R84). -/
def execLdImm (x : Nibble) (kk : Byte) (s : State) : Result := .next (s.writeV x kk)

/-- 7xkk, `ADD Vx, kk` (R85): no flag. -/
def execAddImm (x : Nibble) (kk : Byte) (s : State) : Result := .next (s.writeV x (s.readV x + kk))

/-- 8xy0, `LD Vx, Vy` (R86). -/
def execLdReg (x y : Nibble) (s : State) : Result := .next (s.writeV x (s.readV y))

/-- 8xy1, `OR Vx, Vy` (R87): VF is not written. -/
def execOr (x y : Nibble) (s : State) : Result := .next (s.writeV x (s.readV x ||| s.readV y))

/-- 8xy2, `AND Vx, Vy` (R88). -/
def execAnd (x y : Nibble) (s : State) : Result := .next (s.writeV x (s.readV x &&& s.readV y))

/-- 8xy3, `XOR Vx, Vy` (R89). -/
def execXor (x y : Nibble) (s : State) : Result := .next (s.writeV x (s.readV x ^^^ s.readV y))

/-- 8xy4, `ADD Vx, Vy` (R90): VF is the carry. -/
def execAdd (x y : Nibble) (s : State) : Result :=
  let a := s.readV x
  let b := s.readV y
  .next (s.writeResultFlag x (a + b) (carryFlag a b))

/-- 8xy5, `SUB Vx, Vy` (R91): VF is 1 iff `Vx > Vy`. -/
def execSub (x y : Nibble) (s : State) : Result :=
  let a := s.readV x
  let b := s.readV y
  .next (s.writeResultFlag x (a - b) (notBorrowFlag a b))

/-- 8xy6, `SHR Vx, Vy` (R92): `y` is ignored. -/
def execShr (x _y : Nibble) (s : State) : Result :=
  let a := s.readV x
  .next (s.writeResultFlag x (a >>> 1) (shiftOutRight a))

/-- 8xy7, `SUBN Vx, Vy` (R93): VF is 1 iff `Vy > Vx`. -/
def execSubn (x y : Nibble) (s : State) : Result :=
  let a := s.readV x
  let b := s.readV y
  .next (s.writeResultFlag x (b - a) (notBorrowFlag b a))

/-- 8xyE, `SHL Vx, Vy` (R94): `y` is ignored. -/
def execShl (x _y : Nibble) (s : State) : Result :=
  let a := s.readV x
  .next (s.writeResultFlag x (a <<< 1) (shiftOutLeft a))

/-- Cxkk, `RND Vx, kk` (R95): the draw is a free value (log entry 1). -/
def execRnd (x : Nibble) (kk : Byte) (s : State) : Result :=
  let (r, t) := s.drawRandom
  .next (t.writeV x (r &&& kk))

end Sys2Proof.Machine
end

