-- ==== Sys2Proof/Machine/Operands.lean ====
section
/-! DEFINITION. The operand forms: what each kind of operand stands for in a state (R53, R54). -/

namespace Sys2Proof.Machine

open Sys2Proof

/-- `zext_16(nnn)`: an address immediate as a word (R53). -/
def addrOperand (nnn : Imm12) : Word := nnn.setWidth 16

/-- `zext_16(V[x])`: a register's byte as a word (R9, R97). -/
def wordOfByte (b : Byte) : Word := b.setWidth 16

/-- The effective address `I + r` of the r-th access, an unbounded natural (R44). -/
def State.indexAddr (s : State) (r : Nat) : Nat := s.i.toNat + r

/-- How many registers Fx55 and Fx65 move: V0 to Vx inclusive (R54). -/
def blockCount (x : Nibble) : Nat := x.toNat + 1

/-- The bytes of V0 to Vx, ascending (R100). -/
def State.blockBytes (s : State) (x : Nibble) : List Byte := s.v.toList.take (blockCount x)

/-- Load the registers r, r+1, ... below `r + count` from `base + r`, ascending (R101). -/
def State.loadBlock (base : Nat) : Nat → Nat → State → State
  | _, 0, s => s
  | r, count + 1, s =>
    State.loadBlock base (r + 1) count (s.writeV (BitVec.ofNat 4 r) (s.mem.read (base + r)))

/-- The decimal digits of a byte, hundreds first (R99). -/
def bcdDigits (v : Byte) : List Byte :=
  [BitVec.ofNat 8 (v.toNat / 100), BitVec.ofNat 8 (v.toNat / 10 % 10), BitVec.ofNat 8 (v.toNat % 10)]

/-- The address of a digit's glyph, `0x050 + 5 * v`, without clamp or mask (R36, R98). -/
def glyphAddr (v : Byte) : Word := BitVec.ofNat 16 (Config.fontBase + Config.glyphBytes * v.toNat)

/-- The key number a register holds (R54); 16 and above name no key (R122). -/
def State.keyNumber (s : State) (x : Nibble) : Nat := (s.readV x).toNat

/-- The lowest-indexed pressed key, if any is pressed (R111). -/
def lowestPressed (key : Vector Bool 16) : Option (Fin 16) := (List.finRange 16).find? fun k => key[k]

/-- The start column of a sprite, `V[x] mod 64` (R104). -/
def State.startCol (s : State) (x : Nibble) : Nat := (s.readV x).toNat % Config.fbWidth

/-- The start row of a sprite, `V[y] mod 32` (R104). -/
def State.startRow (s : State) (y : Nibble) : Nat := (s.readV y).toNat % Config.fbHeight

end Sys2Proof.Machine
end

