-- ==== Sys2Proof/Machine/Control.lean ====
section
/-! DEFINITION. Control flow: return, jumps, call, skips (R75 to R82), and the no-op (R69).
In a meaning `pc` already holds the instruction's address plus 2 (R11). -/

namespace Sys2Proof.Machine

open Sys2Proof

/-- Skip the next word if the condition holds (R12). -/
def State.skipIf (s : State) (c : Bool) : State := if c then s.skip else s

/-- The execute stage of a no-op writes nothing (R69). -/
def execNoOp (s : State) : Result := .next s

/-- 00EE, `RET` (R75). -/
def execRet (s : State) : Result :=
  match s.pop? with
  | some (target, t) => .next (t.setPc target)
  | none => raise (.stackUnderflow s.instrAddr.toNat)

/-- 1nnn, `JP nnn` (R76). -/
def execJp (nnn : Imm12) (s : State) : Result := .next (s.setPc (addrOperand nnn))

/-- 2nnn, `CALL nnn` (R77): the pushed value is the advanced pc. -/
def execCall (nnn : Imm12) (s : State) : Result :=
  match s.push? s.pc with
  | some t => .next (t.setPc (addrOperand nnn))
  | none => raise (.stackOverflow s.instrAddr.toNat)

/-- 3xkk, `SE Vx, kk` (R78). -/
def execSeImm (x : Nibble) (kk : Byte) (s : State) : Result := .next (s.skipIf (s.readV x = kk))

/-- 4xkk, `SNE Vx, kk` (R79). -/
def execSneImm (x : Nibble) (kk : Byte) (s : State) : Result := .next (s.skipIf (s.readV x ≠ kk))

/-- 5xy0, `SE Vx, Vy` (R80). -/
def execSeReg (x y : Nibble) (s : State) : Result := .next (s.skipIf (s.readV x = s.readV y))

/-- 9xy0, `SNE Vx, Vy` (R81). -/
def execSneReg (x y : Nibble) (s : State) : Result := .next (s.skipIf (s.readV x ≠ s.readV y))

/-- Bnnn, `JP V0, nnn` (R82): the sum is at most 0x10FE and does not wrap. -/
def execJpV0 (nnn : Imm12) (s : State) : Result :=
  .next (s.setPc (wordOfByte (s.readV 0) + addrOperand nnn))

end Sys2Proof.Machine
end

