-- ==== Sys2Proof/Machine/Display.lean ====
section
/-! DEFINITION. The framebuffer: clear, the sprite rasterizer and its collision detector (R102 to R108). -/

namespace Sys2Proof.Machine

open Sys2Proof

/-- A framebuffer in the course of a draw, with the sticky collision of R106. -/
structure Canvas where
  fb : Framebuffer
  collision : Bool
  deriving DecidableEq, Repr

/-- The plane with every cell dark (R102). -/
def darkPlane : Framebuffer := Vector.replicate 64 (Vector.replicate 32 false)

/-- Draw one set sprite bit at column `px`, row `py` (R106): a lit cell is a collision, and the cell is toggled.
A pixel outside the framebuffer is clipped: it changes nothing and does not collide (R107). -/
def Canvas.plot (c : Canvas) (px py : Nat) : Canvas :=
  if h : px < 64 ∧ py < 32 then
    { fb := c.fb.set px ((c.fb[px]'h.1).set py (!(c.fb[px]'h.1)[py]'h.2) h.2) h.1
      collision := c.collision || (c.fb[px]'h.1)[py]'h.2 }
  else c

/-- Draw the columns col, col+1, ... (`count` of them) of one sprite row, ascending (R103).
Column c is bit `7 - c`, so the most significant bit is leftmost (R105). -/
def Canvas.drawCols (b : Byte) (x0 py : Nat) : Nat → Nat → Canvas → Canvas
  | _, 0, c => c
  | col, count + 1, c =>
    Canvas.drawCols b x0 py (col + 1) count (if b.getLsbD (7 - col) then c.plot (x0 + col) py else c)

/-- Draw the rows row, row+1, ... (`count` of them) of the sprite at `base`, ascending (R103, R105). -/
def Canvas.drawRows (m : Memory) (base x0 y0 : Nat) : Nat → Nat → Canvas → Canvas
  | _, 0, c => c
  | row, count + 1, c =>
    Canvas.drawRows m base x0 y0 (row + 1) count (Canvas.drawCols (m.read (base + row)) x0 (y0 + row) 0 8 c)

/-- 00E0, `CLS` (R102): VF is not written. -/
def execCls (s : State) : Result := .next (s.setFB darkPlane)

/-- Dxyn, `DRW Vx, Vy, n` (R103): all `n` row addresses are checked first (R107), the coordinates are read before VF is
written (R104), and the collision flag is the last write. -/
def execDrw (x y n : Nibble) (s : State) : Result :=
  if inRange (s.indexAddr 0) n.toNat then
    let c := Canvas.drawRows s.mem (s.indexAddr 0) (s.startCol x) (s.startRow y) 0 n.toNat ⟨s.fb, false⟩
    .next ((s.setFB c.fb).writeV vF (flagByte c.collision))
  else raise (.outOfBoundsAccess .sprite (firstBad (s.indexAddr 0)))

end Sys2Proof.Machine
end

