-- ==== Sys2Proof/Machine/IndexMemory.lean ====
section
/-! DEFINITION. The index register, BCD and block load and store (R96 to R101).
An access range is checked whole before the first write (R44), and `I` is never changed by an access (R21). -/

namespace Sys2Proof.Machine

open Sys2Proof

/-- Run `k` if `count` bytes from `I` are all in memory, else raise the index fault of R120. -/
def State.withIndexRange (s : State) (count : Nat) (k : Result) : Result :=
  if inRange (s.indexAddr 0) count then k
  else raise (.outOfBoundsAccess .index (firstBad (s.indexAddr 0)))

/-- Annn, `LD I, nnn` (R96). -/
def execLdI (nnn : Imm12) (s : State) : Result := .next (s.setI (addrOperand nnn))

/-- Fx1E, `ADD I, Vx` (R97): modulo 65536, no flag, no range check. -/
def execAddI (x : Nibble) (s : State) : Result := .next (s.setI (s.i + wordOfByte (s.readV x)))

/-- Fx29, `LD F, Vx` (R98). -/
def execLdF (x : Nibble) (s : State) : Result := .next (s.setI (glyphAddr (s.readV x)))

/-- Fx33, `LD B, Vx` (R99). -/
def execLdB (x : Nibble) (s : State) : Result :=
  s.withIndexRange 3
    (.next (s.setMem (s.mem.writeBytes (s.indexAddr 0) (bcdDigits (s.readV x)))))

/-- Fx55, `LD [I], Vx` (R100). -/
def execLdMemVx (x : Nibble) (s : State) : Result :=
  s.withIndexRange (blockCount x)
    (.next (s.setMem (s.mem.writeBytes (s.indexAddr 0) (s.blockBytes x))))

/-- Fx65, `LD Vx, [I]` (R101). -/
def execLdVxMem (x : Nibble) (s : State) : Result :=
  s.withIndexRange (blockCount x)
    (.next (State.loadBlock (s.indexAddr 0) 0 (blockCount x) s))

end Sys2Proof.Machine
end

