-- ==== Sys2Proof/Machine/KeypadTimers.lean ====
section
/-! DEFINITION. Keypad tests, the key wait and timer access (R109 to R114). -/

namespace Sys2Proof.Machine

open Sys2Proof

/-- Run `k` on the pressed state of the key `V[x]` names, else raise the key fault of R122. -/
def State.withKey (s : State) (x : Nibble) (k : Bool → Result) : Result :=
  if h : s.keyNumber x < 16 then k (s.key[s.keyNumber x]'h)
  else raise (.outOfBoundsAccess .key (s.keyNumber x))

/-- Ex9E, `SKP Vx` (R109). -/
def execSkp (x : Nibble) (s : State) : Result := s.withKey x fun pressed => .next (s.skipIf pressed)

/-- ExA1, `SKNP Vx` (R110). -/
def execSknp (x : Nibble) (s : State) : Result := s.withKey x fun pressed => .next (s.skipIf !pressed)

/-- Fx0A, `LD Vx, K` (R111): with no key pressed `pc` goes back to the instruction, which runs again next step (R74). -/
def execLdVxK (x : Nibble) (s : State) : Result :=
  match lowestPressed s.key with
  | some k => .next (s.writeV x (BitVec.ofNat 8 k.val))
  | none => .next (s.setPc s.instrAddr)

/-- Fx07, `LD Vx, DT` (R112): the value before this step's tick. -/
def execLdVxDT (x : Nibble) (s : State) : Result := .next (s.writeV x s.dt)

/-- Fx15, `LD DT, Vx` (R113): this step's tick follows. -/
def execLdDTVx (x : Nibble) (s : State) : Result := .next (s.setDT (s.readV x))

/-- Fx18, `LD ST, Vx` (R114): this step's tick follows. -/
def execLdSTVx (x : Nibble) (s : State) : Result := .next (s.setST (s.readV x))

end Sys2Proof.Machine
end

