-- ==== Sys2Proof/Machine/Step.lean ====
section
/-! DEFINITION. The step of R64 and R73: fetch, decode, execute, timer tick; and where the host lays the next word. -/

namespace Sys2Proof.Machine

open Sys2Proof

/-- The execute stage of what was decoded (R67 to R69). -/
def execFetched (f : Fetched) (s : State) : Result :=
  match f with
  | .instr i => exec i s
  | .noOp _ => execNoOp s

/-- One step (R73). The execute stage sees the advanced pc (R66), and the tick follows it unless it faulted (R70).
A fault carries no state: the machine stays as it was before the step (R72). -/
def step (s : State) : Host.Outcome State Fault Refusal :=
  match s.fetch with
  | .error f => raise f
  | .ok w =>
    match execFetched (decode w) s.advance with
    | .next t => .next t.tick
    | .fault f => .fault f
    | .refused r => .refused r

/-- `s` with the instruction whose bits are `w`, as spec/opcode_table.json numbers them, stored where `step` fetches next
(log entry 6). -/
def State.withFetchWord (s : State) (nbits w : Nat) : State :=
  s.placeWord (BitVec.ofNat 16 (w % 2 ^ nbits))

end Sys2Proof.Machine
end

