-- ==== Sys2Proof/Machine/HostInterface.lean ====
section
/-! DEFINITION. The seven operations of the host (R129), each on a whole machine, called between steps and one at a time. -/

namespace Sys2Proof.Machine

open Sys2Proof

/-- Construction with a given font (R7, R29, R136): the reset state, with that font's bytes at 0x050 to 0x09F. -/
def State.construct (font : Font) : State :=
  State.reset.setMem (State.reset.mem.writeBytes Config.fontBase font.toList)

/-- Why `load` rejects an image (R124). -/
inductive LoadError where
  /-- the image is longer than 3584 bytes -/
  | tooLarge
  deriving DecidableEq, Repr

/-- `load(image)` (R138): copy the image to 0x200 and above, or write nothing. -/
def State.load (s : State) (image : List Byte) : Except LoadError State :=
  if image.length > Config.maxImage then .error .tooLarge
  else .ok (s.setMem (s.mem.writeBytes Config.progBase image))

/-- `set_key(k, p)` (R129): `KEY[k] <- p`. Its type excludes a key number above 15. -/
def State.setKey (s : State) (k : Fin 16) (p : Bool) : State := { s with key := s.key.set k p }

/-- `framebuffer()` (R130). -/
def State.framebuffer (s : State) : Framebuffer := s.fb

/-- `delay_timer()` (R131). -/
def State.delayTimer (s : State) : Byte := s.dt

/-- `sound_timer()` (R131). -/
def State.soundTimer (s : State) : Byte := s.st

/-- What the host can call (R129). -/
inductive HostCall where
  | construct
  | load (image : List Byte)
  | step
  | setKey (k : Fin 16) (p : Bool)
  | framebuffer
  | delayTimer
  | soundTimer
  deriving DecidableEq, Repr

/-- What the host gets back (R129). -/
inductive HostReply where
  /-- `Ok` of `step` and `load`, the constructed machine, and the answer of `set_key`, which returns nothing -/
  | ok
  | loadError (e : LoadError)
  | fault (f : Fault)
  /-- no step of this model answers it -/
  | refused (r : Refusal)
  | plane (fb : Framebuffer)
  | timer (b : Byte)
  deriving DecidableEq, Repr

/-- One call of the host on a machine whose font parameter is `font`: the reply and the machine afterwards (R129).
A step that faults leaves the machine as it was (R72, R116).
DESIGN CHOICE, safe (log entry 1): `construct` keeps the count of draws, so that the draws of the new machine are further
ones. The spec gives neither seed nor generator and puts no law on draws (R28, R95), and a count back at 0 would say that
the same bytes come again. -/
def serve (font : Font) (call : HostCall) (s : State) : HostReply × State :=
  match call with
  | .construct => (.ok, { State.construct font with draws := s.draws })
  | .load image =>
    match s.load image with
    | .ok t => (.ok, t)
    | .error e => (.loadError e, s)
  | .step =>
    match Sys2Proof.Machine.step s with
    | .next t => (.ok, t)
    | .fault f => (.fault f, s)
    | .refused r => (.refused r, s)
  | .setKey k p => (.ok, s.setKey k p)
  | .framebuffer => (.plane s.framebuffer, s)
  | .delayTimer => (.timer s.delayTimer, s)
  | .soundTimer => (.timer s.soundTimer, s)

end Sys2Proof.Machine
end

