-- ==== Sys2Proof/Safety.lean ====
section
/-! DEFINITION. The terms claims are stated in: the parts of the machine and what a change leaves alone, what each
instruction writes, the machine's invariant, the machines a host can reach, and when a step faults. -/

namespace Sys2Proof.Machine

open Sys2Proof

/-! ### Frames -/

/-- The parts of the machine (R13). -/
inductive Part where
  | memory | regs | index | pc | stack | delay | sound | keypad | plane | draws
  deriving DecidableEq, Repr

/-- A part is the same in two states. Memory is compared as every read of one byte sees it; the stack is `S` with `SP`. -/
def Part.same : Part → State → State → Prop
  | .memory, s, t => ∀ a, t.mem.read a = s.mem.read a
  | .regs, s, t => ∀ r, t.readV r = s.readV r
  | .index, s, t => t.i = s.i
  | .pc, s, t => t.pc = s.pc
  | .stack, s, t => t.stack = s.stack ∧ t.sp = s.sp
  | .delay, s, t => t.dt = s.dt
  | .sound, s, t => t.st = s.st
  | .keypad, s, t => t.key = s.key
  | .plane, s, t => t.fb = s.fb
  | .draws, s, t => t.draws = s.draws

/-- Every part that is not listed is the same in the two states. -/
def ChangesOnly (ps : List Part) (s t : State) : Prop := ∀ p, p ∉ ps → p.same s t

/-- Every register that is not listed reads the same in the two states. -/
def RegsSameBut (rs : List Nibble) (s t : State) : Prop := ∀ r, r ∉ rs → t.readV r = s.readV r

/-- Every byte of memory outside the `len` bytes from `base` reads the same in the two states. -/
def MemorySameOutside (base len : Nat) (s t : State) : Prop :=
  ∀ a, ¬(base ≤ a ∧ a < base + len) → t.mem.read a = s.mem.read a

/-- The lit state of the cell at column `x`, row `y` (R26). -/
def State.cell (s : State) (x : Fin 64) (y : Fin 32) : Bool := s.fb[x][y]

/-- The encoding of an instruction as its rule gives it, a match and a mask (R60): its word has the fixed bits of the row,
and decodes to it with every operand. -/
def EncodedAs (i : Instr) (bits mask : Word) : Prop := encode i &&& mask = bits ∧ decode (encode i) = .instr i

/-- The instruction of the row of `i` whose operands are the fields of `w`, each given as arithmetic on the number `w`
(R52): `x = w[11:8]`, `y = w[7:4]`, `n = w[3:0]`, `kk = w[7:0]`, `nnn = w[11:0]`. -/
def withFieldsOf (i : Instr) (w : Word) : Instr :=
  let x : Nibble := BitVec.ofNat 4 (w.toNat / 256 % 16)
  let y : Nibble := BitVec.ofNat 4 (w.toNat / 16 % 16)
  let n : Nibble := BitVec.ofNat 4 (w.toNat % 16)
  let kk : Byte := BitVec.ofNat 8 (w.toNat % 256)
  let nnn : Imm12 := BitVec.ofNat 12 (w.toNat % 4096)
  match i with
  | .cls => .cls
  | .ret => .ret
  | .jp _ => .jp nnn
  | .call _ => .call nnn
  | .seImm _ _ => .seImm x kk
  | .sneImm _ _ => .sneImm x kk
  | .seReg _ _ => .seReg x y
  | .ldImm _ _ => .ldImm x kk
  | .addImm _ _ => .addImm x kk
  | .ldReg _ _ => .ldReg x y
  | .orReg _ _ => .orReg x y
  | .andReg _ _ => .andReg x y
  | .xorReg _ _ => .xorReg x y
  | .addReg _ _ => .addReg x y
  | .sub _ _ => .sub x y
  | .shr _ _ => .shr x y
  | .subn _ _ => .subn x y
  | .shl _ _ => .shl x y
  | .sneReg _ _ => .sneReg x y
  | .ldI _ => .ldI nnn
  | .jpV0 _ => .jpV0 nnn
  | .rnd _ _ => .rnd x kk
  | .drw _ _ _ => .drw x y n
  | .skp _ => .skp x
  | .sknp _ => .sknp x
  | .ldVxDT _ => .ldVxDT x
  | .ldVxK _ => .ldVxK x
  | .ldDTVx _ => .ldDTVx x
  | .ldSTVx _ => .ldSTVx x
  | .addI _ => .addI x
  | .ldF _ => .ldF x
  | .ldB _ => .ldB x
  | .ldMemVx _ => .ldMemVx x
  | .ldVxMem _ => .ldVxMem x

/-! ### What each instruction writes -/

/-- The registers an instruction may write (R16): its destination, and VF where it defines a flag. -/
def destRegs : Instr → List Nibble
  | .ldImm x _ | .addImm x _ | .ldReg x _ | .orReg x _ | .andReg x _ | .xorReg x _ => [x]
  | .addReg x _ | .sub x _ | .shr x _ | .subn x _ | .shl x _ => [x, vF]
  | .rnd x _ | .ldVxDT x | .ldVxK x => [x]
  | .drw _ _ _ => [vF]
  | .ldVxMem x => (List.range (x.toNat + 1)).map (BitVec.ofNat 4)
  | .cls | .ret | .jp _ | .call _ | .seImm _ _ | .sneImm _ _ | .seReg _ _ | .sneReg _ _ | .ldI _ | .jpV0 _ | .skp _
  | .sknp _ | .ldDTVx _ | .ldSTVx _ | .addI _ | .ldF _ | .ldB _ | .ldMemVx _ => []

/-- The parts the execute stage of an instruction may write (R16, R19, R21 to R26, R33).
The advance of pc by the fetch stage and the timer tick are not the execute stage's. -/
def partsWritten : Instr → List Part
  | .cls => [.plane]
  | .drw _ _ _ => [.plane, .regs]
  | .ret | .call _ => [.pc, .stack]
  | .jp _ | .jpV0 _ | .seImm _ _ | .sneImm _ _ | .seReg _ _ | .sneReg _ _ | .skp _ | .sknp _ => [.pc]
  | .ldImm _ _ | .addImm _ _ | .ldReg _ _ | .orReg _ _ | .andReg _ _ | .xorReg _ _ | .addReg _ _ | .sub _ _ | .shr _ _
  | .subn _ _ | .shl _ _ | .ldVxDT _ | .ldVxMem _ => [.regs]
  | .rnd _ _ => [.regs, .draws]
  | .ldVxK _ => [.regs, .pc]
  | .ldI _ | .addI _ | .ldF _ => [.index]
  | .ldDTVx _ => [.delay]
  | .ldSTVx _ => [.sound]
  | .ldB _ | .ldMemVx _ => [.memory]

/-- How many bytes from `I` an instruction stores (R33). -/
def bytesStored : Instr → Nat
  | .ldB _ => 3
  | .ldMemVx x => x.toNat + 1
  | _ => 0

/-! ### The invariant, and the machines a host can reach -/

/-- What holds of every machine a host can reach: memory is in its canonical form and lists no address at or above 4096
(R31), pc is at most the largest value a step can produce, and so is every stack slot (R20). -/
structure State.Inv (s : State) : Prop where
  memory : s.mem.wf = true
  pc : s.pc.toNat ≤ 0x10FE
  slots : ∀ k : Fin 16, s.stack[k].toNat ≤ 0x1000

/-- The machines a host can reach through its seven operations (R129), from the construction with a given font (R139). -/
inductive Reachable (font : Font) : State → Prop where
  | construct : Reachable font (State.construct font)
  | call (c : HostCall) (s : State) : Reachable font s → Reachable font (serve font c s).2

/-! ### Safe steps -/

/-- A step that ends `Ok` (R71). -/
def State.StepOk (s : State) : Prop := ∃ t, step s = .next t

/-- The word at `pc`, high byte first (R40), whether or not the fetch may read it. -/
def State.wordAtPc (s : State) : Word := wordOfBytes (s.mem.read s.pc.toNat) (s.mem.read (s.pc.toNat + 1))

/-- The fault of a step, written from the table of R115 and the order of R125: first the fetch check of R119, then the one
fault condition the instruction has (R117, R118, R120, R121, R122). -/
def faultCondition (s : State) : Option Fault :=
  if 4096 ≤ s.pc.toNat + 1 then
    some (.outOfBoundsAccess .fetch (if 4096 ≤ s.pc.toNat then s.pc.toNat else s.pc.toNat + 1))
  else
    match decode s.wordAtPc with
    | .instr (.call _) => if s.sp.val = 16 then some (.stackOverflow s.pc.toNat) else none
    | .instr .ret => if s.sp.val = 0 then some (.stackUnderflow s.pc.toNat) else none
    | .instr (.ldB _) =>
      if 4096 ≤ s.i.toNat + 2 then some (.outOfBoundsAccess .index (max s.i.toNat 4096)) else none
    | .instr (.ldMemVx x) | .instr (.ldVxMem x) =>
      if 4096 ≤ s.i.toNat + x.toNat then some (.outOfBoundsAccess .index (max s.i.toNat 4096)) else none
    | .instr (.drw _ _ n) =>
      if 0 < n.toNat ∧ 4096 ≤ s.i.toNat + n.toNat - 1 then some (.outOfBoundsAccess .sprite (max s.i.toNat 4096))
      else none
    | .instr (.skp x) | .instr (.sknp x) =>
      if 16 ≤ (s.readV x).toNat then some (.outOfBoundsAccess .key (s.readV x).toNat) else none
    | _ => none

/-- pc at the end of a step that does not fault, by the table of R19; `s` is the state before the step, and `A` its pc. -/
def pcAfter (s : State) : Nat :=
  let A := s.pc.toNat
  let skipWhen (c : Bool) : Nat := if c then A + 4 else A + 2
  match decode s.wordAtPc with
  | .instr (.seImm x kk) => skipWhen (s.readV x = kk)
  | .instr (.sneImm x kk) => skipWhen (s.readV x ≠ kk)
  | .instr (.seReg x y) => skipWhen (s.readV x = s.readV y)
  | .instr (.sneReg x y) => skipWhen (s.readV x ≠ s.readV y)
  | .instr (.skp x) => skipWhen (s.key.toList.getD (s.readV x).toNat false)
  | .instr (.sknp x) => skipWhen (!s.key.toList.getD (s.readV x).toNat false)
  | .instr (.jp nnn) => nnn.toNat
  | .instr (.call nnn) => nnn.toNat
  | .instr .ret => (s.stack.toList.getD (s.sp.val - 1) 0).toNat
  | .instr (.jpV0 nnn) => (s.readV 0).toNat + nnn.toNat
  | .instr (.ldVxK _) => if ∃ k : Fin 16, s.key[k] = true then A + 2 else A
  | _ => A + 2

/-! ### The sprite, in closed form -/

/-- Whether the sprite of a Dxyn at `s` has a set bit on the cell at column `px`, row `py`: the cell lies under the 8
columns from `V[x] mod 64` and the `n` rows from `V[y] mod 32`, and bit `7 - c` of row byte r is set there
(R104, R105). A cell is inside the framebuffer by its type, so what clips is what has no cell (R107). -/
def spriteBit (s : State) (x y n : Nibble) (px : Fin 64) (py : Fin 32) : Bool :=
  let x0 := (s.readV x).toNat % 64
  let y0 := (s.readV y).toNat % 32
  decide (x0 ≤ px.val ∧ px.val < x0 + 8 ∧ y0 ≤ py.val ∧ py.val < y0 + n.toNat) &&
    (s.mem.read (s.i.toNat + (py.val - y0))).getLsbD (7 - (px.val - x0))

end Sys2Proof.Machine
end

