-- ==== Sys2Proof/Certificates/Slice0/Obligations.lean ====
section
/-! DEFINITION. The statements for the provers. Each docstring names the rules of the spec the statement formalises.
It says so where a clause is the model's own choice, and where it rests on a decision the spec marks as its own
(D1 to D25 of 92_eei_decisions.md) or on a rule the spec marks as derived. -/

open Sys2Proof Sys2Proof.Machine

/-! ### Encoding and decoding (30_encoding.md) -/

/-- Words written out from the opcode map's patterns, at least one for each group, decode to what they stand for.
The whole-word and low-nibble matches of the groups 0, 5 and 9 are the spec's decision D9. -/
def Obligations.SampleWordsDecode : Prop :=
  decode 0x00E0 = .instr .cls ∧ decode 0x00EE = .instr .ret ∧ decode 0x1ABC = .instr (.jp 0xABC) ∧
  decode 0x2400 = .instr (.call 0x400) ∧ decode 0x3105 = .instr (.seImm 1 0x05) ∧
  decode 0x4F80 = .instr (.sneImm 15 0x80) ∧ decode 0x5230 = .instr (.seReg 2 3) ∧
  decode 0x600A = .instr (.ldImm 0 0x0A) ∧ decode 0x71FF = .instr (.addImm 1 0xFF) ∧
  decode 0x8F14 = .instr (.addReg 15 1) ∧ decode 0x812E = .instr (.shl 1 2) ∧ decode 0x9230 = .instr (.sneReg 2 3) ∧
  decode 0xA050 = .instr (.ldI 0x050) ∧ decode 0xBFFF = .instr (.jpV0 0xFFF) ∧ decode 0xC10F = .instr (.rnd 1 0x0F) ∧
  decode 0xD125 = .instr (.drw 1 2 5) ∧ decode 0xE09E = .instr (.skp 0) ∧ decode 0xEAA1 = .instr (.sknp 10) ∧
  decode 0xFA33 = .instr (.ldB 10) ∧ decode 0xF255 = .instr (.ldMemVx 2) ∧ decode 0xFF65 = .instr (.ldVxMem 15) ∧
  decode 0x0000 = .noOp 0x0000 ∧ decode 0x5121 = .noOp 0x5121 ∧ decode 0x8008 = .noOp 0x8008 ∧
  decode 0xF0FF = .noOp 0xF0FF

/-- Decoding the encoding of a well-formed term gives the term back: every instruction with every operand, and every
no-op. -/
def Obligations.DecodeOfEncode : Prop :=
  ∀ f : Fetched, f.wellFormed = true → decode f.encode = f

/-- The decoder takes exactly two bytes and answers a well-formed term for any of them (R62; sections 1, 4 and 5 of
30_encoding.md). It loses no bit of them: R62 does not say so, and for a no-op word it is the model's choice that
`Fetched.noOp` keeps its word (log entry 7). -/
def Obligations.DecodeTotalAndLossless : Prop :=
  ∀ (hi lo : Byte) (rest : List Byte),
    ∃ f : Fetched, decodeBytes (hi :: lo :: rest) = .ok (f, rest) ∧ f.wellFormed = true ∧
      highByte f.encode = hi ∧ lowByte f.encode = lo

/-- The opcode map (R60): a word decodes to the instruction of a row exactly when `w AND mask = match`, and no two rows
match one word. Every word that matches a row decodes to that row's instruction with the operands at the fields of R52,
which `withFieldsOf` gives as arithmetic on the word, where the decoder slices bits. The masks of 00E0, 00EE, 5xy0 and
9xy0 are the spec's decision D9. -/
def Obligations.DecodeFollowsOpcodeMap : Prop :=
  (∀ (w : Word) (i : Instr), (∃ j, decode w = .instr j ∧ j.row = i.row) ↔ w &&& i.row.mask = i.row.bits) ∧
  (∀ (w : Word) (i j : Instr), w &&& i.row.mask = i.row.bits → w &&& j.row.mask = j.row.bits → i.row = j.row) ∧
  (∀ (w : Word) (i : Instr), w &&& i.row.mask = i.row.bits → decode w = .instr (withFieldsOf i w))

/-- A word is a no-op exactly when it lies in the no-op space as R61 lists it, and then it matches no row of the map
(the spec's decision D9 in the groups 0, 5 and 9). -/
def Obligations.NoOpSpaceIsTheRest : Prop :=
  ∀ w : Word, (decode w = .noOp w ↔ (noOpGroup w).isSome = true) ∧
    (decode w = .noOp w ↔ ∀ i : Instr, w &&& i.row.mask ≠ i.row.bits)

/-! ### The step (40_step_cycle.md) -/

/-- When the two bytes at pc decode to an instruction, a step is `exec` of it with pc advanced by 2, and then one tick of
each timer; a fault ends the step without a next state (R64, R66, R68, R70; for the fault, the spec's decision
D2). -/
def Obligations.StepRunsTheDecodedInstruction : Prop :=
  ∀ (s : State) (i : Instr), s.pc.toNat + 1 < 4096 →
    decodeBytes [s.mem.read s.pc.toNat, s.mem.read (s.pc.toNat + 1)] = .ok (.instr i, []) →
    step s =
      match exec i { s with pc := s.pc + 2 } with
      | .next t =>
        .next { t with dt := if t.dt = 0 then 0 else t.dt - 1, st := if t.st = 0 then 0 else t.st - 1 }
      | .fault f => .fault f
      | .refused r => .refused r

/-- The fetch check (R65, R119): a step faults with source fetch exactly when `pc + 1 >= 4096`, with the first of the two
addresses that is out of range. That this is a fault, and what its info holds, are the spec's decisions D2 and D21. -/
def Obligations.FetchFaultsPastTheEnd : Prop :=
  ∀ s : State,
    (4096 ≤ s.pc.toNat → step s = .fault (.outOfBoundsAccess .fetch s.pc.toNat)) ∧
    (s.pc.toNat = 4095 → step s = .fault (.outOfBoundsAccess .fetch 4096)) ∧
    (s.pc.toNat + 1 < 4096 → ∀ a, step s ≠ .fault (.outOfBoundsAccess .fetch a))

/-- A word that decodes to no instruction does not fault: its step advances pc by 2, ticks the timers and changes nothing
else (R61, R69, R123). -/
def Obligations.NoOpStepAdvancesAndTicks : Prop :=
  ∀ (s : State) (w : Word), s.pc.toNat + 1 < 4096 → decode s.wordAtPc = .noOp w →
    ∃ t, step s = .next t ∧ t.pc.toNat = s.pc.toNat + 2 ∧ t.dt.toNat = s.dt.toNat - 1 ∧ t.st.toNat = s.st.toNat - 1 ∧
      ChangesOnly [.pc, .delay, .sound] s t

/-- The timer tick (R70): in every step that does not fault, each timer ends one below the value the execute stage left
in it, or at 0; that value is the old one except after Fx15 and Fx18. Fx07 reads DT before the tick.
A step that faults does not tick, by the spec's decision D2. (The subtraction is of natural numbers, so `0 - 1` is 0.)
-/
def Obligations.EveryOkStepTicksBothTimers : Prop :=
  ∀ s : State,
    (∀ t, step s = .next t →
      t.dt.toNat = (match decode s.wordAtPc with | .instr (.ldDTVx x) => s.readV x | _ => s.dt).toNat - 1 ∧
      t.st.toNat = (match decode s.wordAtPc with | .instr (.ldSTVx x) => s.readV x | _ => s.st).toNat - 1 ∧
      ∀ x, decode s.wordAtPc = .instr (.ldVxDT x) → t.readV x = s.dt) ∧
    (∀ font f, step s = .fault f → (serve font .step s).2.dt = s.dt ∧ (serve font .step s).2.st = s.st)

/-- The table of R19, which the spec derives from R66 and the instruction rules: pc at the end of every step that does
not fault. -/
def Obligations.PcAfterEveryOkStep : Prop :=
  ∀ s t : State, step s = .next t → t.pc.toNat = pcAfter s

/-- A step answers `Ok` or a fault and nothing else; the no-op answers `Ok`, and so does Fx0A whether or not a key is
pressed (R71). -/
def Obligations.StepAnswersOkOrFault : Prop :=
  ∀ s : State,
    (s.StepOk ∨ ∃ f, step s = .fault f) ∧
    (s.pc.toNat + 1 < 4096 → (∃ w, decode s.wordAtPc = .noOp w) → s.StepOk) ∧
    (s.pc.toNat + 1 < 4096 → (∃ x, decode s.wordAtPc = .instr (.ldVxK x)) → s.StepOk)

/-! ### Faults (60_exceptions.md) -/

/-- A step faults exactly in the conditions of R117 to R122, found in the order of R125, each with the info of its rule,
and in every other state it is `Ok`. That each of these is a fault, the key number's among them, that a clipped sprite
row counts, and what the info holds are the spec's decisions D2, D3, D5 and D21; the order is its own derivation. -/
def Obligations.StepFaultsExactlyWhenListed : Prop :=
  ∀ s : State, (∀ f, step s = .fault f ↔ faultCondition s = some f) ∧ (faultCondition s = none → s.StepOk)

/-- A faulting step commits nothing (R116), and stepping again raises the same fault, also after the host has changed
keys or the random draw would be another one (R128, which the spec derives). Both rest on the spec's decision D2. -/
def Obligations.FaultedMachineStaysAndFaultsAgain : Prop :=
  ∀ (font : Font) (s : State) (f : Fault), step s = .fault f →
    serve font .step s = (.fault f, s) ∧ (∀ k p, step (s.setKey k p) = .fault f) ∧
    (∀ n, step { s with draws := n } = .fault f)

/-! ### The invariant (10_state.md, 20_memory.md) -/

/-- Construction meets the invariant, with any font; the reset state is the construction with the default font, which is
the model's choice of the parameter FONT (log entry 2). -/
def Obligations.ConstructionMeetsInvariant : Prop :=
  (∀ font : Font, (State.construct font).Inv) ∧ State.construct defaultFont = State.reset ∧ State.reset.Inv

/-- Every step keeps the invariant: the canonical memory, which is the model's own representation, and the bounds of R20
on pc and on the stack's entries. -/
def Obligations.StepKeepsInvariant : Prop :=
  ∀ s t : State, s.Inv → step s = .next t → t.Inv

/-- Every machine a host can reach meets the invariant, so pc is never above 0x10FE (R20). -/
def Obligations.ReachableMeetsInvariant : Prop :=
  ∀ (font : Font) (s : State), Reachable font s → s.Inv

/-- In canonical memories, equal reads mean equal lists (the model's own representation). -/
def Obligations.CanonicalMemoryIsUnique : Prop :=
  ∀ m n : Memory, m.wf = true → n.wf = true → (∀ a, m.read a = n.read a) → m = n

/-! ### What may write what (10_state.md, 20_memory.md) -/

/-- The execute stage of an instruction changes no register but those R16 lists for it, a list the spec derives
from its instruction rules. -/
def Obligations.RegistersChangeOnlyAsListed : Prop :=
  ∀ (i : Instr) (s t : State), exec i s = .next t → RegsSameBut (destRegs i) s t

/-- The execute stage of an instruction changes only the parts its rule writes: pc, `I`, the stack, the timers, the
keypad (never), the framebuffer, memory and the registers each have the writers the spec lists, and no other.
That Fx55 and Fx65 leave `I` is the spec's decision D10. -/
def Obligations.PartsChangeOnlyAsListed : Prop :=
  ∀ (i : Instr) (s t : State), exec i s = .next t → ChangesOnly (partsWritten i) s t

/-- A step changes a byte of memory only if it runs Fx33 or Fx55 and the byte is among those stored from `I` (R33). -/
def Obligations.StepStoresOnlyFromIndex : Prop :=
  ∀ s t : State, s.mem.wf = true → step s = .next t →
    MemorySameOutside s.i.toNat (match decode s.wordAtPc with | .instr i => bytesStored i | .noOp _ => 0) s t

/-- No instruction but Ex9E, ExA1 and Fx0A depends on the keypad (R25, R126). -/
def Obligations.KeypadReachesOnlyItsReaders : Prop :=
  ∀ (i : Instr) (s : State) (keys : Vector Bool 16),
    (∀ x, i ≠ .skp x ∧ i ≠ .sknp x ∧ i ≠ .ldVxK x) →
    (∀ t, exec i s = .next t → exec i { s with key := keys } = .next { t with key := keys }) ∧
    (∀ f, exec i s = .fault f → exec i { s with key := keys } = .fault f)

/-- No instruction but Cxkk depends on the random draw (R73), and each Cxkk uses up exactly one.
The counter of draws is the model's own (log entry 1), and a draw under no law is the spec's decision D13. -/
def Obligations.DrawReachesOnlyRnd : Prop :=
  (∀ (x : Nibble) (kk : Byte) (s t : State), exec (.rnd x kk) s = .next t → t.draws = s.draws + 1) ∧
  ∀ (i : Instr) (s : State) (n : Nat), (∀ x kk, i ≠ .rnd x kk) →
    (∀ t, exec i s = .next t → exec i { s with draws := n } = .next { t with draws := n }) ∧
    (∀ f, exec i s = .fault f → exec i { s with draws := n } = .fault f)

/-- No instruction reads ST (R24): whatever ST holds, a step faults alike, or ends alike but for ST. -/
def Obligations.SoundTimerIsNeverRead : Prop :=
  ∀ (s : State) (b : Byte),
    (∀ f, step s = .fault f → step (s.setST b) = .fault f) ∧
    (∀ t, step s = .next t → ∃ c, step (s.setST b) = .next (t.setST c))

/-- A stack slot at or above SP cannot be observed (R22, the spec's decision D22): a machine with other values there
takes the same step, and the two still agree below SP. -/
def Obligations.StaleStackSlotsAreNotObservable : Prop :=
  ∀ (s : State) (slots : Vector Word 16), (∀ k : Fin 16, k.val < s.sp.val → slots[k] = s.stack[k]) →
    (∀ f, step s = .fault f → step { s with stack := slots } = .fault f) ∧
    (∀ t, step s = .next t → ∃ slots' : Vector Word 16,
      step { s with stack := slots } = .next { t with stack := slots' } ∧
      ∀ k : Fin 16, k.val < t.sp.val → slots'[k] = t.stack[k])

/-! ### Control flow (41_control_flow.md). `s` is the state the execute stage starts in: its pc is the address plus 2. -/

/-- 1nnn (R76): pc is the target, whatever it is. -/
def Obligations.JumpSetsPc : Prop :=
  ∀ (nnn : Imm12) (s : State),
    EncodedAs (.jp nnn) 0x1000 0xF000 ∧
    ∃ t, exec (.jp nnn) s = .next t ∧ t.pc.toNat = nnn.toNat ∧ ChangesOnly [.pc] s t

/-- Bnnn (R82): pc is the sum of V0 and the target, not reduced, by the spec's decision D17. -/
def Obligations.OffsetJumpAddsV0 : Prop :=
  ∀ (nnn : Imm12) (s : State),
    EncodedAs (.jpV0 nnn) 0xB000 0xF000 ∧
    ∃ t, exec (.jpV0 nnn) s = .next t ∧ t.pc.toNat = (s.readV 0).toNat + nnn.toNat ∧ ChangesOnly [.pc] s t

/-- 2nnn (R77, R117): with fewer than 16 entries it pushes the return address and jumps; with 16 it faults, with the
address of the call.
That a 17th call is a fault, and what its info holds, are the spec's decisions D2 and D21. -/
def Obligations.CallPushesReturnAddress : Prop :=
  ∀ (nnn : Imm12) (s : State),
    EncodedAs (.call nnn) 0x2000 0xF000 ∧
    (∀ h : s.sp.val < 16, ∃ t, exec (.call nnn) s = .next t ∧ t.stack[s.sp.val] = s.pc ∧
      (∀ k : Fin 16, k.val ≠ s.sp.val → t.stack[k] = s.stack[k]) ∧ t.sp.val = s.sp.val + 1 ∧
      t.pc.toNat = nnn.toNat ∧ ChangesOnly [.pc, .stack] s t) ∧
    (s.sp.val = 16 → exec (.call nnn) s = .fault (.stackOverflow (s.pc - 2).toNat))

/-- 00EE (R75, R118): with an entry on the stack it pops it into pc and leaves the slots; with none it faults, with the
address of the return. That the slots keep what they held is the spec's decision D22.
That an empty stack is a fault, and what its info holds, are D2 and D21. -/
def Obligations.ReturnPopsIntoPc : Prop :=
  ∀ s : State,
    EncodedAs .ret 0x00EE 0xFFFF ∧
    (∀ h : 0 < s.sp.val, ∃ t, exec .ret s = .next t ∧ t.pc = s.stack[s.sp.val - 1] ∧ t.sp.val = s.sp.val - 1 ∧
      t.stack = s.stack ∧ ChangesOnly [.pc, .stack] s t) ∧
    (s.sp.val = 0 → exec .ret s = .fault (.stackUnderflow (s.pc - 2).toNat))

/-- A return after a call comes back to the word after the call, with the stack as deep as before (R75, R77). -/
def Obligations.ReturnUndoesCall : Prop :=
  ∀ (nnn : Imm12) (s t u : State), exec (.call nnn) s = .next t → u.stack = t.stack → u.sp = t.sp →
    ∃ w, exec .ret u = .next w ∧ w.pc = s.pc ∧ w.sp = s.sp ∧
      ∀ k : Fin 16, k.val < s.sp.val → w.stack[k] = s.stack[k]

/-- 3xkk and 4xkk (R78, R79). -/
def Obligations.SkipsOnImmediate : Prop :=
  ∀ (x : Nibble) (kk : Byte) (s : State),
    EncodedAs (.seImm x kk) 0x3000 0xF000 ∧ EncodedAs (.sneImm x kk) 0x4000 0xF000 ∧
    (∃ t, exec (.seImm x kk) s = .next t ∧ t.pc = (if (s.readV x).toNat = kk.toNat then s.pc + 2 else s.pc) ∧
      ChangesOnly [.pc] s t) ∧
    (∃ t, exec (.sneImm x kk) s = .next t ∧ t.pc = (if (s.readV x).toNat = kk.toNat then s.pc else s.pc + 2) ∧
      ChangesOnly [.pc] s t)

/-- 5xy0 and 9xy0 (R80, R81); with `x = y` the first always skips and the second never. -/
def Obligations.SkipsOnRegisters : Prop :=
  ∀ (x y : Nibble) (s : State),
    EncodedAs (.seReg x y) 0x5000 0xF00F ∧ EncodedAs (.sneReg x y) 0x9000 0xF00F ∧
    (∃ t, exec (.seReg x y) s = .next t ∧
      t.pc = (if (s.readV x).toNat = (s.readV y).toNat then s.pc + 2 else s.pc) ∧
      (x = y → t.pc = s.pc + 2) ∧ ChangesOnly [.pc] s t) ∧
    (∃ t, exec (.sneReg x y) s = .next t ∧
      t.pc = (if (s.readV x).toNat = (s.readV y).toNat then s.pc else s.pc + 2) ∧
      (x = y → t.pc = s.pc) ∧ ChangesOnly [.pc] s t)

/-! ### The ALU (42_alu.md) -/

/-- 6xkk and 7xkk (R84, R85): no flag is written, whatever the sum. -/
def Obligations.ImmediateLoadAndAdd : Prop :=
  ∀ (x : Nibble) (kk : Byte) (s : State),
    EncodedAs (.ldImm x kk) 0x6000 0xF000 ∧ EncodedAs (.addImm x kk) 0x7000 0xF000 ∧
    (∃ t, exec (.ldImm x kk) s = .next t ∧ t.readV x = kk ∧ RegsSameBut [x] s t ∧ ChangesOnly [.regs] s t) ∧
    (∃ t, exec (.addImm x kk) s = .next t ∧ (t.readV x).toNat = ((s.readV x).toNat + kk.toNat) % 256 ∧
      RegsSameBut [x] s t ∧ ChangesOnly [.regs] s t)

/-- 8xy0, 8xy1, 8xy2 and 8xy3 (R86 to R89), bit by bit; none writes VF unless it is the destination. -/
def Obligations.CopyAndLogic : Prop :=
  ∀ (x y : Nibble) (s : State),
    EncodedAs (.ldReg x y) 0x8000 0xF00F ∧ EncodedAs (.orReg x y) 0x8001 0xF00F ∧
    EncodedAs (.andReg x y) 0x8002 0xF00F ∧ EncodedAs (.xorReg x y) 0x8003 0xF00F ∧
    (∃ t, exec (.ldReg x y) s = .next t ∧ t.readV x = s.readV y ∧ RegsSameBut [x] s t ∧ ChangesOnly [.regs] s t) ∧
    (∃ t, exec (.orReg x y) s = .next t ∧
      (∀ j < 8, (t.readV x).getLsbD j = ((s.readV x).getLsbD j || (s.readV y).getLsbD j)) ∧
      RegsSameBut [x] s t ∧ ChangesOnly [.regs] s t) ∧
    (∃ t, exec (.andReg x y) s = .next t ∧
      (∀ j < 8, (t.readV x).getLsbD j = ((s.readV x).getLsbD j && (s.readV y).getLsbD j)) ∧
      RegsSameBut [x] s t ∧ ChangesOnly [.regs] s t) ∧
    (∃ t, exec (.xorReg x y) s = .next t ∧
      (∀ j < 8, (t.readV x).getLsbD j = ((s.readV x).getLsbD j ^^ (s.readV y).getLsbD j)) ∧
      RegsSameBut [x] s t ∧ ChangesOnly [.regs] s t)

/-- 8xy4 (R90): the sum modulo 256 and then the carry in VF, which replaces the sum when `x = 15`. -/
def Obligations.AddSetsCarry : Prop :=
  ∀ (x y : Nibble) (s : State),
    EncodedAs (.addReg x y) 0x8004 0xF00F ∧
    ∃ t, exec (.addReg x y) s = .next t ∧
      t.readV 15 = (if 255 < (s.readV x).toNat + (s.readV y).toNat then 1 else 0) ∧
      (x ≠ 15 → (t.readV x).toNat = ((s.readV x).toNat + (s.readV y).toNat) % 256) ∧
      RegsSameBut [x, 15] s t ∧ ChangesOnly [.regs] s t

/-- 8xy5 and 8xy7 (R91, R93): the difference modulo 256 and then the NOT-borrow in VF, by strict comparison, so that
equal operands give 0. -/
def Obligations.SubtractSetsNotBorrow : Prop :=
  ∀ (x y : Nibble) (s : State),
    EncodedAs (.sub x y) 0x8005 0xF00F ∧ EncodedAs (.subn x y) 0x8007 0xF00F ∧
    (∃ t, exec (.sub x y) s = .next t ∧
      t.readV 15 = (if (s.readV y).toNat < (s.readV x).toNat then 1 else 0) ∧
      (x ≠ 15 → (t.readV x).toNat = ((s.readV x).toNat + 256 - (s.readV y).toNat) % 256) ∧
      RegsSameBut [x, 15] s t ∧ ChangesOnly [.regs] s t) ∧
    (∃ t, exec (.subn x y) s = .next t ∧
      t.readV 15 = (if (s.readV x).toNat < (s.readV y).toNat then 1 else 0) ∧
      (x ≠ 15 → (t.readV x).toNat = ((s.readV y).toNat + 256 - (s.readV x).toNat) % 256) ∧
      RegsSameBut [x, 15] s t ∧ ChangesOnly [.regs] s t)

/-- 8xy6 and 8xyE (R92, R94): halving and doubling modulo 256, with the bit shifted out in VF; `y` does not matter. -/
def Obligations.ShiftsSetShiftOut : Prop :=
  ∀ (x y : Nibble) (s : State),
    EncodedAs (.shr x y) 0x8006 0xF00F ∧ EncodedAs (.shl x y) 0x800E 0xF00F ∧
    (∃ t, exec (.shr x y) s = .next t ∧ (t.readV 15).toNat = (s.readV x).toNat % 2 ∧
      (x ≠ 15 → (t.readV x).toNat = (s.readV x).toNat / 2) ∧
      RegsSameBut [x, 15] s t ∧ ChangesOnly [.regs] s t ∧ ∀ z, exec (.shr x z) s = .next t) ∧
    (∃ t, exec (.shl x y) s = .next t ∧ (t.readV 15).toNat = (s.readV x).toNat / 128 ∧
      (x ≠ 15 → (t.readV x).toNat = (s.readV x).toNat * 2 % 256) ∧
      RegsSameBut [x, 15] s t ∧ ChangesOnly [.regs] s t ∧ ∀ z, exec (.shl x z) s = .next t)

/-- Cxkk (R95): the destination holds the byte drawn, masked; no flag is written, and one draw is used up.
The byte drawn is `Config.randomByte` of the count of draws, which has no body: that is the model's own way to leave the draw
free (log entry 1), and a draw under no law is the spec's decision D13. So the statement holds for every draw, and with mask
0 the result is 0. -/
def Obligations.RandomByteIsMasked : Prop :=
  ∀ (x : Nibble) (kk : Byte) (s : State),
    EncodedAs (.rnd x kk) 0xC000 0xF000 ∧
    ∃ t, exec (.rnd x kk) s = .next t ∧ t.readV x = Config.randomByte s.draws &&& kk ∧ (kk = 0 → t.readV x = 0) ∧
      t.draws = s.draws + 1 ∧ RegsSameBut [x] s t ∧ ChangesOnly [.regs, .draws] s t

/-! ### Index register and memory (43_index_memory.md) -/

/-- Annn and Fx1E (R96, R97): the sum is modulo 65536 and not range-checked, and no flag is written. -/
def Obligations.IndexSetAndAdd : Prop :=
  ∀ (x : Nibble) (nnn : Imm12) (s : State),
    EncodedAs (.ldI nnn) 0xA000 0xF000 ∧ EncodedAs (.addI x) 0xF01E 0xF0FF ∧
    (∃ t, exec (.ldI nnn) s = .next t ∧ t.i.toNat = nnn.toNat ∧ ChangesOnly [.index] s t) ∧
    (∃ t, exec (.addI x) s = .next t ∧ t.i.toNat = (s.i.toNat + (s.readV x).toNat) % 65536 ∧
      ChangesOnly [.index] s t)

/-- Fx29 (R98): the glyph address of the digit, neither clamped nor masked for a register above 15, by the spec's
decision D8. -/
def Obligations.GlyphAddressIsNotClamped : Prop :=
  ∀ (x : Nibble) (s : State),
    EncodedAs (.ldF x) 0xF029 0xF0FF ∧
    ∃ t, exec (.ldF x) s = .next t ∧ t.i.toNat = 0x050 + 5 * (s.readV x).toNat ∧ ChangesOnly [.index] s t

/-- Fx33 (R99): the three decimal digits at `I`, `I+1`, `I+2`, most significant first, and no other byte; or the fault,
when the last of them is not in memory (the spec's decisions D2 and D21). -/
def Obligations.BcdStoresDigits : Prop :=
  ∀ (x : Nibble) (s : State), s.mem.wf = true →
    EncodedAs (.ldB x) 0xF033 0xF0FF ∧
    (s.i.toNat + 2 < 4096 → ∃ t, exec (.ldB x) s = .next t ∧
      (t.mem.read s.i.toNat).toNat = (s.readV x).toNat / 100 ∧
      (t.mem.read (s.i.toNat + 1)).toNat = (s.readV x).toNat / 10 % 10 ∧
      (t.mem.read (s.i.toNat + 2)).toNat = (s.readV x).toNat % 10 ∧
      MemorySameOutside s.i.toNat 3 s t ∧ ChangesOnly [.memory] s t) ∧
    (4096 ≤ s.i.toNat + 2 → exec (.ldB x) s = .fault (.outOfBoundsAccess .index (max s.i.toNat 4096)))

/-- Fx55 (R100): V0 to Vx at `I` and up, and no other byte, with `I` unchanged; or the fault, when the last address is
not in memory (the spec's decisions D2, D10 and D21). -/
def Obligations.BlockStoreWritesRegisters : Prop :=
  ∀ (x : Nibble) (s : State), s.mem.wf = true →
    EncodedAs (.ldMemVx x) 0xF055 0xF0FF ∧
    (s.i.toNat + x.toNat < 4096 → ∃ t, exec (.ldMemVx x) s = .next t ∧
      (∀ r : Nibble, r.toNat ≤ x.toNat → t.mem.read (s.i.toNat + r.toNat) = s.readV r) ∧
      MemorySameOutside s.i.toNat (x.toNat + 1) s t ∧ ChangesOnly [.memory] s t) ∧
    (4096 ≤ s.i.toNat + x.toNat → exec (.ldMemVx x) s = .fault (.outOfBoundsAccess .index (max s.i.toNat 4096)))

/-- Fx65 (R101): V0 to Vx from `I` and up, the registers above x and `I` unchanged; or the fault, when the last address
is not in memory (the spec's decisions D2, D10 and D21). -/
def Obligations.BlockLoadReadsRegisters : Prop :=
  ∀ (x : Nibble) (s : State),
    EncodedAs (.ldVxMem x) 0xF065 0xF0FF ∧
    (s.i.toNat + x.toNat < 4096 → ∃ t, exec (.ldVxMem x) s = .next t ∧
      (∀ r : Nibble, r.toNat ≤ x.toNat → t.readV r = s.mem.read (s.i.toNat + r.toNat)) ∧
      (∀ r : Nibble, x.toNat < r.toNat → t.readV r = s.readV r) ∧ ChangesOnly [.regs] s t) ∧
    (4096 ≤ s.i.toNat + x.toNat → exec (.ldVxMem x) s = .fault (.outOfBoundsAccess .index (max s.i.toNat 4096)))

/-- A block load from where a block was stored gives every register back (R100, R101, with the spec's
decision D10 that neither moves `I`). -/
def Obligations.BlockLoadUndoesBlockStore : Prop :=
  ∀ (x : Nibble) (s t u : State), s.mem.wf = true → exec (.ldMemVx x) s = .next t → u.mem = t.mem → u.i = s.i →
    ∃ w, exec (.ldVxMem x) u = .next w ∧ ∀ r : Nibble, r.toNat ≤ x.toNat → w.readV r = s.readV r

/-- Fetch is coherent with stores (R40, R47, the spec's decision D20): wherever pc comes to lie in what Fx55, Fx33 or `load`
has written, with the byte after it, the next fetch reads the stored bytes, high byte first. -/
def Obligations.FetchSeesStores : Prop :=
  (∀ (x r : Nibble) (s t u : State), s.mem.wf = true → exec (.ldMemVx x) s = .next t → u.mem = t.mem →
    r.toNat < x.toNat → u.pc.toNat = s.i.toNat + r.toNat →
    u.fetch = .ok (wordOfBytes (s.readV r) (s.readV (r + 1)))) ∧
  (∀ (x : Nibble) (s t u : State), s.mem.wf = true → exec (.ldB x) s = .next t → u.mem = t.mem →
    (u.pc.toNat = s.i.toNat → ∃ w, u.fetch = .ok w ∧
      (highByte w).toNat = (s.readV x).toNat / 100 ∧ (lowByte w).toNat = (s.readV x).toNat / 10 % 10) ∧
    (u.pc.toNat = s.i.toNat + 1 → ∃ w, u.fetch = .ok w ∧
      (highByte w).toNat = (s.readV x).toNat / 10 % 10 ∧ (lowByte w).toNat = (s.readV x).toNat % 10)) ∧
  (∀ (image : List Byte) (j : Nat) (s t u : State), s.mem.wf = true → s.load image = .ok t → u.mem = t.mem →
    j + 1 < image.length → u.pc.toNat = 0x200 + j →
    u.fetch = .ok (wordOfBytes (image.getD j 0) (image.getD (j + 1) 0)))

/-! ### The framebuffer (44_display.md) -/

/-- 00E0 (R102): every cell is dark afterwards, and nothing else has changed. -/
def Obligations.ClearDarkensEveryCell : Prop :=
  ∀ s : State, EncodedAs .cls 0x00E0 0xFFFF ∧
    ∃ t, exec .cls s = .next t ∧ (∀ x y, t.cell x y = false) ∧ ChangesOnly [.plane] s t

/-- Dxyn (R103 to R107): each cell under a set sprite bit is toggled and no other cell changes; VF is 1 exactly when one
of those cells was lit; sprite pixels outside the framebuffer do nothing. With a row address outside memory it faults.
`spriteBit` gives the sprite in closed form, where the model draws bit after bit.
The clipping, the fault of a clipped row, the bit order and the coordinate from the old VF are the spec's decisions D4,
D5, D6 and D7; the fault itself and its info are D2 and D21. -/
def Obligations.DrawTogglesExactlyTheSprite : Prop :=
  ∀ (x y n : Nibble) (s : State),
    EncodedAs (.drw x y n) 0xD000 0xF000 ∧
    (n = 0 ∨ s.i.toNat + n.toNat - 1 < 4096 → ∃ t, exec (.drw x y n) s = .next t ∧
      (∀ px py, t.cell px py = (s.cell px py ^^ spriteBit s x y n px py)) ∧
      t.readV 15 = (if ∃ px py, s.cell px py = true ∧ spriteBit s x y n px py = true then 1 else 0) ∧
      RegsSameBut [15] s t ∧ ChangesOnly [.plane, .regs] s t) ∧
    (n ≠ 0 → 4096 ≤ s.i.toNat + n.toNat - 1 →
      exec (.drw x y n) s = .fault (.outOfBoundsAccess .sprite (max s.i.toNat 4096)))

/-- The properties of R108, which the spec derives and C8 corrects: a draw changes only the cells under the sprite's
visible set bits; drawing the same sprite again at the same place restores the framebuffer; and if every one of those
cells was dark, the first draw gives VF = 0 and the second VF = 1, or 0 for a sprite with no visible set bit. -/
def Obligations.DrawingTwiceRestores : Prop :=
  ∀ (x y n : Nibble) (s t u w : State), exec (.drw x y n) s = .next t →
    u.fb = t.fb → u.i = s.i → (∀ r < n.toNat, u.mem.read (s.i.toNat + r) = s.mem.read (s.i.toNat + r)) →
    u.readV x = s.readV x → u.readV y = s.readV y → exec (.drw x y n) u = .next w →
    (∀ px py, spriteBit s x y n px py = false → t.cell px py = s.cell px py) ∧
    w.fb = s.fb ∧
    ((∀ px py, spriteBit s x y n px py = true → s.cell px py = false) →
      t.readV 15 = 0 ∧ w.readV 15 = (if ∃ px py, spriteBit s x y n px py = true then 1 else 0))

/-- Fx29 and then Dxy5 draw a digit's glyph from the font table, whatever its bytes are and whatever the rest of memory
holds: on a dark framebuffer exactly the set bits of the glyph's five rows are lit, clipped at the edges (R36, R98, R103;
the spec's decisions D4 and D6). The draw starts in any state that agrees with the end of Fx29 in what it reads, so that a
fetch and a tick may lie between. -/
def Obligations.DigitIsDrawnFromTheFont : Prop :=
  ∀ (font : Font) (x a b : Nibble) (s t v : State) (d : Nat) (hd : d < 16),
    (∀ k : Fin 80, s.mem.read (0x050 + k.val) = font[k]) →
    (s.readV x).toNat = d → (∀ px py, s.cell px py = false) → exec (.ldF x) s = .next t →
    v.mem = t.mem → v.v = t.v → v.i = t.i → v.fb = t.fb →
    ∃ u, exec (.drw a b 5) v = .next u ∧ u.readV 15 = 0 ∧
      ∀ (px : Fin 64) (py : Fin 32), u.cell px py = true ↔
        ∃ (r c : Nat) (_ : r < 5), c < 8 ∧ px.val = (s.readV a).toNat % 64 + c ∧
          py.val = (s.readV b).toNat % 32 + r ∧ (font[5 * d + r]).getLsbD (7 - c) = true

/-! ### Keypad and timers (45_keypad_timers.md) -/

/-- Ex9E and ExA1 (R109, R110): with a key number below 16 they test that key's level; above, they fault (the spec's
decisions D3 and D21). -/
def Obligations.KeySkipsTestOneKey : Prop :=
  ∀ (x : Nibble) (s : State),
    EncodedAs (.skp x) 0xE09E 0xF0FF ∧ EncodedAs (.sknp x) 0xE0A1 0xF0FF ∧
    (∀ h : (s.readV x).toNat < 16,
      (∃ t, exec (.skp x) s = .next t ∧ t.pc = (if s.key[(s.readV x).toNat] = true then s.pc + 2 else s.pc) ∧
        ChangesOnly [.pc] s t) ∧
      (∃ t, exec (.sknp x) s = .next t ∧ t.pc = (if s.key[(s.readV x).toNat] = true then s.pc else s.pc + 2) ∧
        ChangesOnly [.pc] s t)) ∧
    (16 ≤ (s.readV x).toNat →
      exec (.skp x) s = .fault (.outOfBoundsAccess .key (s.readV x).toNat) ∧
      exec (.sknp x) s = .fault (.outOfBoundsAccess .key (s.readV x).toNat))

/-- Fx0A (R111): with no key pressed pc goes back by 2 and nothing else changes; else the destination gets the lowest
pressed key. -/
def Obligations.KeyWaitTakesLowestKey : Prop :=
  ∀ (x : Nibble) (s : State),
    EncodedAs (.ldVxK x) 0xF00A 0xF0FF ∧
    ∃ t, exec (.ldVxK x) s = .next t ∧
      ((∀ k : Fin 16, s.key[k] = false) → t.pc = s.pc - 2 ∧ ChangesOnly [.pc] s t) ∧
      (∀ k : Fin 16, s.key[k] = true → (∀ j : Fin 16, j < k → s.key[j] = false) →
        (t.readV x).toNat = k.val ∧ RegsSameBut [x] s t ∧ ChangesOnly [.regs] s t)

/-- While no key is pressed, a machine at an Fx0A stays at it for any number of steps, each of them `Ok`, and only the
timers move (R74). -/
def Obligations.KeyWaitRepeats : Prop :=
  ∀ (x : Nibble) (s : State), s.pc.toNat + 1 < 4096 → decode s.wordAtPc = .instr (.ldVxK x) →
    (∀ k : Fin 16, s.key[k] = false) →
    ∀ steps : Nat, ∃ t, core.run steps s = .next t ∧ t.dt.toNat = s.dt.toNat - steps ∧
      t.st.toNat = s.st.toNat - steps ∧ ChangesOnly [.delay, .sound] s t

/-- Fx07, Fx15 and Fx18 (R112, R113, R114), before the tick of their own step. -/
def Obligations.TimerAccess : Prop :=
  ∀ (x : Nibble) (s : State),
    EncodedAs (.ldVxDT x) 0xF007 0xF0FF ∧ EncodedAs (.ldDTVx x) 0xF015 0xF0FF ∧ EncodedAs (.ldSTVx x) 0xF018 0xF0FF ∧
    (∃ t, exec (.ldVxDT x) s = .next t ∧ t.readV x = s.dt ∧ RegsSameBut [x] s t ∧ ChangesOnly [.regs] s t) ∧
    (∃ t, exec (.ldDTVx x) s = .next t ∧ t.dt = s.readV x ∧ ChangesOnly [.delay] s t) ∧
    (∃ t, exec (.ldSTVx x) s = .next t ∧ t.st = s.readV x ∧ ChangesOnly [.sound] s t)

/-- The same-step tick a program must allow for (R142, which the spec derives): a step of Fx15 or Fx18 with value v
leaves the timer at `v - 1`, and an Fx07 in the step after an Fx15 reads that. -/
def Obligations.DelayReadBackIsOneLess : Prop :=
  ∀ (x y : Nibble) (s t u : State), step s = .next t → step t = .next u →
    decode s.wordAtPc = .instr (.ldDTVx x) → decode t.wordAtPc = .instr (.ldVxDT y) →
    (u.readV y).toNat = (s.readV x).toNat - 1

/-! ### Construction and the host (60_exceptions.md, 70_reset_and_hazards.md) -/

/-- The table of R29, for any font. -/
def Obligations.ConstructionValues : Prop :=
  ∀ font : Font,
    (∀ a, (State.construct font).mem.read a =
      if h : 0x050 ≤ a ∧ a < 0x0A0 then font[a - 0x050]'(by omega) else 0) ∧
    (∀ r, (State.construct font).readV r = 0) ∧ (State.construct font).i = 0 ∧ (State.construct font).pc = 0x200 ∧
    (∀ k : Fin 16, (State.construct font).stack[k] = 0) ∧ (State.construct font).sp = 0 ∧
    (State.construct font).dt = 0 ∧ (State.construct font).st = 0 ∧
    (∀ k : Fin 16, (State.construct font).key[k] = false) ∧ ∀ x y, (State.construct font).cell x y = false

/-- `load` (R138): an image of at most 3584 bytes is copied to 0x200 and above and changes nothing else; a longer one is
rejected, and the machine is unchanged (the spec's decision D15). -/
def Obligations.LoadCopiesOrRejects : Prop :=
  ∀ (font : Font) (image : List Byte) (s : State), s.mem.wf = true →
    (image.length ≤ 3584 → ∃ t, serve font (.load image) s = (.ok, t) ∧
      (∀ j < image.length, t.mem.read (0x200 + j) = image.getD j 0) ∧
      MemorySameOutside 0x200 image.length s t ∧ ChangesOnly [.memory] s t) ∧
    (3584 < image.length → serve font (.load image) s = (.loadError .tooLarge, s))

/-- `set_key` writes the one key; the read accessors answer the framebuffer and the timers and change nothing
(R129, R130, R131). -/
def Obligations.HostKeyAndReads : Prop :=
  ∀ (font : Font) (s : State),
    (∀ (k j : Fin 16) (p : Bool), (serve font (.setKey k p) s).2.key[j] = if j = k then p else s.key[j]) ∧
    (∀ (k : Fin 16) (p : Bool), ChangesOnly [.keypad] s (serve font (.setKey k p) s).2) ∧
    serve font .framebuffer s = (.plane s.fb, s) ∧ serve font .delayTimer s = (.timer s.dt, s) ∧
    serve font .soundTimer s = (.timer s.st, s)

/-- The host's placement of a word is what the next step fetches, and touches nothing but the two bytes; where no fetch is
possible at pc, pc is first put at 0x200. The placement is the model's own (log entry 6). -/
def Obligations.PlacedWordIsFetched : Prop :=
  ∀ (s : State) (w : Nat), s.mem.wf = true →
    (s.withFetchWord 16 w).fetch = .ok (BitVec.ofNat 16 w) ∧
    (s.pc.toNat + 1 < 4096 → ChangesOnly [.memory] s (s.withFetchWord 16 w) ∧
      MemorySameOutside s.pc.toNat 2 s (s.withFetchWord 16 w)) ∧
    (4096 ≤ s.pc.toNat + 1 → (s.withFetchWord 16 w).pc = 0x200 ∧ ChangesOnly [.memory, .pc] s (s.withFetchWord 16 w) ∧
      MemorySameOutside 0x200 2 s (s.withFetchWord 16 w))
end

