-- ==== Sys2Proof/Laws/Memory.lean ====
section
/-! SUPPORT. What the memory operations do: reading after a write, and the canonical form they keep. -/

namespace Sys2Proof.Machine

open Sys2Proof

@[simp] theorem Memory.read_nil (a : Nat) : Memory.read [] a = resetByte a := rfl

@[simp] theorem Memory.read_cons (k : Nat) (b : Byte) (m : Memory) (a : Nat) :
    Memory.read ((k, b) :: m) a = if k = a then b else Memory.read m a := rfl

theorem Memory.wfFrom_cons {lo k : Nat} {b : Byte} {m : Memory} :
    Memory.wfFrom lo ((k, b) :: m) = true ↔
      lo ≤ k ∧ k < 4096 ∧ b ≠ resetByte k ∧ Memory.wfFrom (k + 1) m = true := by
  simp [Memory.wfFrom, and_assoc]

/-- A larger lower bound is the stronger claim. -/
theorem Memory.wfFrom_mono {lo lo' : Nat} (h : lo' ≤ lo) {m : Memory} (hm : Memory.wfFrom lo m = true) :
    Memory.wfFrom lo' m = true := by
  cases m with
  | nil => rfl
  | cons c m =>
    obtain ⟨k, b⟩ := c
    rw [Memory.wfFrom_cons] at hm ⊢
    exact ⟨h.trans hm.1, hm.2⟩

/-- Below its first possible address a canonical memory reads as construction left it. -/
theorem Memory.read_of_lt {lo a : Nat} {m : Memory} (hm : Memory.wfFrom lo m = true) (h : a < lo) :
    Memory.read m a = resetByte a := by
  induction m generalizing lo with
  | nil => rfl
  | cons c m ih =>
    obtain ⟨k, b⟩ := c
    rw [Memory.wfFrom_cons] at hm
    rw [Memory.read_cons, if_neg (by omega), ih hm.2.2.2 (by omega)]

/-- Listing a cell only where it differs from construction still gives the byte there. -/
theorem Memory.read_putCell {m : Memory} {a : Nat} (hm : m.read a = resetByte a) (c : Nat) (v : Byte) :
    Memory.read (if v = resetByte a then m else (a, v) :: m) c = if c = a then v else m.read c := by
  by_cases hc : c = a
  · subst hc
    by_cases hv : v = resetByte c
    · simp [hv, hm]
    · simp [hv]
  · have hac : a ≠ c := fun h => hc h.symm
    by_cases hv : v = resetByte a <;> simp [hv, hc, hac]

/-- Reading after a write: the written byte at its address, the old byte everywhere else. -/
theorem Memory.read_write_from {lo : Nat} {m : Memory} (hm : Memory.wfFrom lo m = true) (a c : Nat) (v : Byte) :
    Memory.read (Memory.write m a v) c = if c = a then v else Memory.read m c := by
  induction m generalizing lo with
  | nil => exact Memory.read_putCell (m := []) rfl c v
  | cons e m ih =>
    obtain ⟨k, b⟩ := e
    have hk := Memory.wfFrom_cons.mp hm
    rcases lt_trichotomy a k with h | h | h
    · have hread : Memory.read ((k, b) :: m) a = resetByte a :=
        Memory.read_of_lt (Memory.wfFrom_cons.mpr ⟨h, hk.2⟩ : Memory.wfFrom (a + 1) _ = true) (by omega)
      rw [Memory.write, if_pos h]
      exact Memory.read_putCell hread c v
    · subst h
      rw [Memory.write, if_neg (lt_irrefl a), if_pos rfl,
        Memory.read_putCell (Memory.read_of_lt hk.2.2.2 (by omega)), Memory.read_cons]
      by_cases hc : c = a
      · simp [hc]
      · rw [if_neg hc, if_neg hc, if_neg (fun h => hc h.symm)]
    · rw [Memory.write, if_neg (by omega), if_neg (by omega), Memory.read_cons, ih hk.2.2.2, Memory.read_cons]
      by_cases hc : c = a
      · subst hc
        rw [if_neg (by omega : ¬k = c), if_pos rfl, if_pos rfl]
      · rw [if_neg hc, if_neg hc]

/-- A write to an address that exists keeps the canonical form. -/
theorem Memory.wfFrom_write {lo : Nat} {m : Memory} (hm : Memory.wfFrom lo m = true) {a : Nat} (hlo : lo ≤ a)
    (ha : a < 4096) (v : Byte) : Memory.wfFrom lo (Memory.write m a v) = true := by
  induction m generalizing lo with
  | nil =>
    by_cases hv : v = resetByte a
    · simp [Memory.write, hv, Memory.wfFrom]
    · simp [Memory.write, hv, Memory.wfFrom, hlo, ha]
  | cons e m ih =>
    obtain ⟨k, b⟩ := e
    have hm' := Memory.wfFrom_cons.mp hm
    rcases lt_trichotomy a k with h | h | h
    · by_cases hv : v = resetByte a
      · simpa [Memory.write, h, hv] using hm
      · rw [Memory.write, if_pos h, if_neg hv]
        exact Memory.wfFrom_cons.mpr ⟨hlo, ha, hv, Memory.wfFrom_cons.mpr ⟨by omega, hm'.2⟩⟩
    · subst h
      by_cases hv : v = resetByte a
      · simpa [Memory.write, hv] using Memory.wfFrom_mono (by omega) hm'.2.2.2
      · simpa [Memory.write, hv] using Memory.wfFrom_cons.mpr ⟨hlo, ha, hv, hm'.2.2.2⟩
    · rw [Memory.write, if_neg (by omega), if_neg (by omega)]
      exact Memory.wfFrom_cons.mpr ⟨hm'.1, hm'.2.1, hm'.2.2.1, ih hm'.2.2.2 (by omega)⟩

theorem Memory.wf_nil : Memory.wf [] = true := rfl

theorem Memory.read_write {m : Memory} (hm : m.wf = true) (a c : Nat) (v : Byte) :
    Memory.read (m.write a v) c = if c = a then v else m.read c :=
  Memory.read_write_from hm a c v

theorem Memory.wf_write {m : Memory} (hm : m.wf = true) {a : Nat} (ha : a < 4096) (v : Byte) :
    (m.write a v).wf = true :=
  Memory.wfFrom_write hm (Nat.zero_le a) ha v

/-- A sequence of writes to addresses that exist keeps the canonical form. -/
theorem Memory.wf_writeBytes {m : Memory} (hm : m.wf = true) (bs : List Byte) {base : Nat}
    (h : base + bs.length ≤ 4096) : (m.writeBytes base bs).wf = true := by
  induction bs generalizing m base with
  | nil => exact hm
  | cons b bs ih =>
    simp only [List.length_cons] at h
    exact ih (Memory.wf_write hm (by omega) b) (by omega)

/-- Reading after a sequence of writes: byte `a - base` inside the written range, the old byte everywhere else. -/
theorem Memory.read_writeBytes {m : Memory} (hm : m.wf = true) (bs : List Byte) {base : Nat}
    (h : base + bs.length ≤ 4096) (a : Nat) :
    (m.writeBytes base bs).read a =
      if base ≤ a ∧ a < base + bs.length then bs.getD (a - base) 0 else m.read a := by
  induction bs generalizing m base with
  | nil => simp [Memory.writeBytes]
  | cons b bs ih =>
    simp only [List.length_cons] at h
    rw [Memory.writeBytes, ih (Memory.wf_write hm (by omega) b) (by omega), Memory.read_write hm]
    rcases lt_trichotomy a base with hab | hab | hab
    · rw [if_neg (by omega), if_neg (by omega), if_neg (by simp; omega)]
    · subst hab
      simp
    · have hsub : a - base = a - (base + 1) + 1 := by omega
      simp only [List.length_cons, hsub, List.getD_cons_succ]
      by_cases hin : a < base + 1 + bs.length
      · rw [if_pos ⟨by omega, hin⟩, if_pos ⟨by omega, by omega⟩]
      · rw [if_neg (by omega), if_neg (by omega), if_neg (by omega)]

end Sys2Proof.Machine
end

