-- ==== Sys2Proof/Laws/Ops.lean ====
section
/-! SUPPORT. One lemma for each shared operation that says what it can do: the range check, the stack, the fetch, the tick. -/

namespace Sys2Proof.Machine

open Sys2Proof

theorem inRange_iff (base count : Nat) : inRange base count = true ↔ count = 0 ∨ base + count ≤ 4096 := by
  simp [inRange]

theorem inRange_false_iff (base count : Nat) : inRange base count = false ↔ count ≠ 0 ∧ 4096 < base + count := by
  simp [inRange]

@[simp] theorem firstBad_eq (base : Nat) : firstBad base = max base 4096 := rfl

theorem State.readV_eq (s : State) (x : Nibble) : s.v[x.toNat]'x.isLt = s.readV x := rfl

/-! ### The stack (R22) -/

theorem State.push?_of_lt {s : State} (h : s.sp.val < 16) (w : Word) :
    s.push? w = some { s with stack := s.stack.set s.sp.val w h, sp := ⟨s.sp.val + 1, by omega⟩ } := dif_pos h

theorem State.push?_of_full {s : State} (h : s.sp.val = 16) (w : Word) : s.push? w = none := dif_neg (by omega)

/-- What a push that succeeds has done. -/
theorem State.push?_eq_some {s t : State} {w : Word} (h : s.push? w = some t) :
    ∃ hs : s.sp.val < 16,
      t = { s with stack := s.stack.set s.sp.val w hs, sp := ⟨s.sp.val + 1, by omega⟩ } := by
  unfold State.push? at h
  split at h
  next hs => exact ⟨hs, (Option.some.inj h).symm⟩
  next => cases h

theorem State.push?_eq_none {s : State} {w : Word} (h : s.push? w = none) : s.sp.val = 16 := by
  unfold State.push? at h
  split at h
  next => cases h
  next hs => omega

theorem State.pop?_of_pos {s : State} (h : 0 < s.sp.val) :
    s.pop? = some (s.stack[s.sp.val - 1], { s with sp := ⟨s.sp.val - 1, by omega⟩ }) := dif_pos h

theorem State.pop?_of_empty {s : State} (h : s.sp.val = 0) : s.pop? = none := dif_neg (by omega)

/-- What a pop that succeeds has done. -/
theorem State.pop?_eq_some {s t : State} {w : Word} (h : s.pop? = some (w, t)) :
    ∃ _ : 0 < s.sp.val, w = s.stack[s.sp.val - 1] ∧ t = { s with sp := ⟨s.sp.val - 1, by omega⟩ } := by
  unfold State.pop? at h
  split at h
  next hs =>
    cases h
    exact ⟨hs, rfl, rfl⟩
  next => cases h

theorem State.pop?_eq_none {s : State} (h : s.pop? = none) : s.sp.val = 0 := by
  unfold State.pop? at h
  split at h
  next => cases h
  next hs => omega

/-! ### Fetch and tick (R65, R70) -/

theorem State.fetch_of_lt {s : State} (h : s.pc.toNat + 1 < 4096) : s.fetch = .ok s.wordAtPc :=
  if_pos ((inRange_iff _ _).mpr (by omega))

theorem State.fetch_of_ge {s : State} (h : 4096 ≤ s.pc.toNat + 1) :
    s.fetch = .error (.outOfBoundsAccess .fetch (max s.pc.toNat 4096)) :=
  if_neg (by simp only [inRange_iff]; omega)

/-- The tick takes a timer one down, and leaves 0 at 0. -/
@[simp] theorem tickTimer_toNat (b : Byte) : (tickTimer b).toNat = b.toNat - 1 := by
  unfold tickTimer
  split
  next h =>
    rw [BitVec.toNat_sub]
    have := b.isLt
    simp only [BitVec.ofNat_eq_ofNat, BitVec.toNat_ofNat]
    omega
  next h => omega

/-- The advance of pc is exact where a fetch was possible (R66). -/
theorem State.advance_pc_toNat {s : State} (h : s.pc.toNat + 1 < 4096) : s.advance.pc.toNat = s.pc.toNat + 2 := by
  rw [State.advance_pc, BitVec.toNat_add]
  simp only [BitVec.ofNat_eq_ofNat, BitVec.toNat_ofNat]
  omega

/-- `A`, the instruction's address, is the pc before the advance. -/
@[simp] theorem State.instrAddr_advance (s : State) : s.advance.instrAddr = s.pc := by
  simp [State.instrAddr]

end Sys2Proof.Machine
end

