-- ==== Sys2Proof/Laws/Block.lean ====
section
/-! SUPPORT. The operands as arithmetic, and the block load and store as reads of one register or one byte. -/

namespace Sys2Proof.Machine

open Sys2Proof

@[simp] theorem addrOperand_toNat (nnn : Imm12) : (addrOperand nnn).toNat = nnn.toNat := by
  have := nnn.isLt
  simp only [addrOperand, BitVec.toNat_setWidth]
  omega

@[simp] theorem wordOfByte_toNat (b : Byte) : (wordOfByte b).toNat = b.toNat := by
  have := b.isLt
  simp only [wordOfByte, BitVec.toNat_setWidth]
  omega

/-- The glyph address does not wrap: it is at most 0x54B (R98). -/
@[simp] theorem glyphAddr_toNat (v : Byte) : (glyphAddr v).toNat = 0x050 + 5 * v.toNat := by
  have := v.isLt
  simp only [glyphAddr, BitVec.toNat_ofNat, Config.fontBase, Config.glyphBytes]
  omega

@[simp] theorem State.indexAddr_eq (s : State) (r : Nat) : s.indexAddr r = s.i.toNat + r := rfl

@[simp] theorem blockCount_eq (x : Nibble) : blockCount x = x.toNat + 1 := rfl

@[simp] theorem bcdDigits_length (v : Byte) : (bcdDigits v).length = 3 := rfl

@[simp] theorem State.blockBytes_length (s : State) (x : Nibble) : (s.blockBytes x).length = x.toNat + 1 := by
  have := x.isLt
  simp only [State.blockBytes, blockCount_eq, List.length_take, Vector.length_toList]
  omega

/-- Byte r of a stored block is V[r] (R100). -/
theorem State.blockBytes_getD (s : State) (x r : Nibble) (h : r.toNat ≤ x.toNat) :
    (s.blockBytes x).getD r.toNat 0 = s.readV r := by
  have hr := r.isLt
  rw [State.blockBytes, List.getD_eq_getElem?_getD, List.getElem?_take_of_lt (by simp; omega)]
  simp [State.readV, hr]

/-- A block load leaves everything but the registers (R101). -/
theorem State.loadBlock_rest (base : Nat) (count r : Nat) (s : State) :
    State.loadBlock base r count s = { s with v := (State.loadBlock base r count s).v } := by
  induction count generalizing r s with
  | zero => rfl
  | succ n ih => rw [State.loadBlock, ih]; rfl

@[simp] theorem State.loadBlock_mem (base count r : Nat) (s : State) :
    (State.loadBlock base r count s).mem = s.mem := by rw [State.loadBlock_rest]

/-- What a register reads after a block load of the registers r to r + count - 1 (R101). -/
theorem State.readV_loadBlock (base count r : Nat) (s : State) (k : Nibble) (h : r + count ≤ 16) :
    (State.loadBlock base r count s).readV k =
      if r ≤ k.toNat ∧ k.toNat < r + count then s.mem.read (base + k.toNat) else s.readV k := by
  induction count generalizing r s with
  | zero => rw [if_neg (by omega)]; rfl
  | succ n ih =>
    rw [State.loadBlock, ih (r + 1) _ (by omega), State.writeV_mem, State.readV_writeV]
    have hk : k = BitVec.ofNat 4 r ↔ k.toNat = r := by
      rw [← BitVec.toNat_inj, BitVec.toNat_ofNat, Nat.mod_eq_of_lt (by omega)]
    simp only [hk]
    split_ifs <;> first | rfl | omega | (congr 2; omega)

end Sys2Proof.Machine
end

