-- ==== Sys2Proof/Laws/Display.lean ====
section
/-! SUPPORT. What a draw does to one cell and to the collision, for a pixel, a row and a sprite. -/

namespace Sys2Proof.Machine

open Sys2Proof

/-- The lit state of a cell of a canvas. -/
def Canvas.cell (c : Canvas) (x : Fin 64) (y : Fin 32) : Bool := c.fb[x][y]

/-- A plotted pixel toggles its own cell, if it has one, and no other (R106, R107). -/
theorem Canvas.cell_plot (c : Canvas) (px py : Nat) (x : Fin 64) (y : Fin 32) :
    (c.plot px py).cell x y = (c.cell x y ^^ decide (x.val = px ∧ y.val = py)) := by
  unfold Canvas.plot Canvas.cell
  split
  next h =>
    by_cases hx : px = x.val
    · subst hx
      by_cases hy : py = y.val
      · subst hy; simp
      · have : ¬(y.val = py) := fun h => hy h.symm
        simp [hy, this]
    · have : ¬(x.val = px) := fun h => hx h.symm
      simp [hx, this]
  next h =>
    have : ¬(x.val = px ∧ y.val = py) := by
      rintro ⟨rfl, rfl⟩
      exact h ⟨x.isLt, y.isLt⟩
    simp [this]

/-- A plotted pixel collides exactly when its cell exists and is lit; a collision is sticky (R106, R107). -/
theorem Canvas.collision_plot (c : Canvas) (px py : Nat) :
    (c.plot px py).collision = true ↔
      c.collision = true ∨ ∃ (x : Fin 64) (y : Fin 32), x.val = px ∧ y.val = py ∧ c.cell x y = true := by
  unfold Canvas.plot Canvas.cell
  split
  next h =>
    simp only [Bool.or_eq_true]
    constructor
    · rintro (hc | hc)
      · exact .inl hc
      · exact .inr ⟨⟨px, h.1⟩, ⟨py, h.2⟩, rfl, rfl, hc⟩
    · rintro (hc | ⟨x, y, rfl, rfl, hc⟩)
      · exact .inl hc
      · exact .inr hc
  next h =>
    constructor
    · exact .inl
    · rintro (hc | ⟨x, y, rfl, rfl, -⟩)
      · exact hc
      · exact absurd ⟨x.isLt, y.isLt⟩ h

/-- Columns `col` to `col + count - 1` of a row toggle the cells under their set bits. -/
theorem Canvas.cell_drawCols (b : Byte) (x0 py : Nat) (count col : Nat) (c : Canvas) (x : Fin 64) (y : Fin 32) :
    (Canvas.drawCols b x0 py col count c).cell x y =
      (c.cell x y ^^ (decide (y.val = py ∧ x0 + col ≤ x.val ∧ x.val < x0 + col + count) &&
        b.getLsbD (7 - (x.val - x0)))) := by
  induction count generalizing col c with
  | zero =>
    have : ¬(y.val = py ∧ x0 + col ≤ x.val ∧ x.val < x0 + col + 0) := by omega
    rw [decide_eq_false this]
    simp [Canvas.drawCols]
  | succ n ih =>
    rw [Canvas.drawCols, ih]
    by_cases hx : x.val = x0 + col
    · have h1 : ¬(y.val = py ∧ x0 + (col + 1) ≤ x.val ∧ x.val < x0 + (col + 1) + n) := by omega
      have h2 : x.val - x0 = col := by omega
      rw [decide_eq_false h1, h2]
      by_cases hb : b.getLsbD (7 - col) = true
      · simp only [hb, if_true, Canvas.cell_plot, Bool.xor_false, Bool.and_true]
        congr 1
        exact decide_eq_decide.mpr (by omega)
      · simp [hb]
    · have h1 : (y.val = py ∧ x0 + (col + 1) ≤ x.val ∧ x.val < x0 + (col + 1) + n) ↔
          (y.val = py ∧ x0 + col ≤ x.val ∧ x.val < x0 + col + (n + 1)) := by omega
      have h2 : ¬(x.val = x0 + col ∧ y.val = py) := by omega
      rw [decide_eq_decide.mpr h1]
      split
      · rw [Canvas.cell_plot, decide_eq_false h2, Bool.xor_false]
      · rfl

/-- Columns of a row collide exactly with the lit cells under their set bits. -/
theorem Canvas.collision_drawCols (b : Byte) (x0 py : Nat) (count col : Nat) (c : Canvas) :
    (Canvas.drawCols b x0 py col count c).collision = true ↔
      c.collision = true ∨ ∃ (x : Fin 64) (y : Fin 32),
        (y.val = py ∧ x0 + col ≤ x.val ∧ x.val < x0 + col + count) ∧ b.getLsbD (7 - (x.val - x0)) = true ∧
        c.cell x y = true := by
  induction count generalizing col c with
  | zero =>
    constructor
    · exact .inl
    · rintro (hc | ⟨x, y, h, -⟩)
      · exact hc
      · omega
  | succ n ih =>
    rw [Canvas.drawCols, ih]
    by_cases hb : b.getLsbD (7 - col) = true
    · simp only [hb, if_true, Canvas.collision_plot, Canvas.cell_plot]
      constructor
      · rintro ((hc | ⟨x, y, hx, hy, hc⟩) | ⟨x, y, h, hbit, hc⟩)
        · exact .inl hc
        · exact .inr ⟨x, y, by omega, by rw [hx]; simpa using hb, hc⟩
        · have h2 : ¬(x.val = x0 + col ∧ y.val = py) := by omega
          rw [decide_eq_false h2, Bool.xor_false] at hc
          exact .inr ⟨x, y, by omega, hbit, hc⟩
      · rintro (hc | ⟨x, y, h, hbit, hc⟩)
        · exact .inl (.inl hc)
        · by_cases hx : x.val = x0 + col
          · exact .inl (.inr ⟨x, y, hx, h.1, hc⟩)
          · have h2 : ¬(x.val = x0 + col ∧ y.val = py) := by omega
            exact .inr ⟨x, y, by omega, hbit, by rw [decide_eq_false h2, Bool.xor_false]; exact hc⟩
    · simp only [hb, Bool.false_eq_true, if_false]
      constructor
      · rintro (hc | ⟨x, y, h, hbit, hc⟩)
        · exact .inl hc
        · exact .inr ⟨x, y, by omega, hbit, hc⟩
      · rintro (hc | ⟨x, y, h, hbit, hc⟩)
        · exact .inl hc
        · by_cases hx : x.val = x0 + col
          · rw [hx, Nat.add_sub_cancel_left] at hbit
            exact absurd hbit hb
          · exact .inr ⟨x, y, by omega, hbit, hc⟩

/-- The sprite bit of the rows `row` to `row + count - 1` on a cell. -/
def rowsBit (m : Memory) (base x0 y0 row count : Nat) (x : Fin 64) (y : Fin 32) : Bool :=
  decide (x0 ≤ x.val ∧ x.val < x0 + 8 ∧ y0 + row ≤ y.val ∧ y.val < y0 + row + count) &&
    (m.read (base + (y.val - y0))).getLsbD (7 - (x.val - x0))

/-- Rows of a sprite toggle exactly the cells under their set bits (R103, R106, R107). -/
theorem Canvas.cell_drawRows (m : Memory) (base x0 y0 : Nat) (count row : Nat) (c : Canvas) (x : Fin 64) (y : Fin 32) :
    (Canvas.drawRows m base x0 y0 row count c).cell x y = (c.cell x y ^^ rowsBit m base x0 y0 row count x y) := by
  induction count generalizing row c with
  | zero =>
    have : ¬(x0 ≤ x.val ∧ x.val < x0 + 8 ∧ y0 + row ≤ y.val ∧ y.val < y0 + row + 0) := by omega
    rw [rowsBit, decide_eq_false this]
    simp [Canvas.drawRows]
  | succ n ih =>
    rw [Canvas.drawRows, ih, Canvas.cell_drawCols]
    unfold rowsBit
    by_cases hy : y.val = y0 + row
    · have h1 : ¬(x0 ≤ x.val ∧ x.val < x0 + 8 ∧ y0 + (row + 1) ≤ y.val ∧ y.val < y0 + (row + 1) + n) := by omega
      have h2 : y.val - y0 = row := by omega
      have h3 : (y.val = y0 + row ∧ x0 + 0 ≤ x.val ∧ x.val < x0 + 0 + 8) ↔
          (x0 ≤ x.val ∧ x.val < x0 + 8 ∧ y0 + row ≤ y.val ∧ y.val < y0 + row + (n + 1)) := by omega
      rw [decide_eq_false h1, h2, decide_eq_decide.mpr h3, Bool.false_and, Bool.xor_false]
    · have h1 : (x0 ≤ x.val ∧ x.val < x0 + 8 ∧ y0 + (row + 1) ≤ y.val ∧ y.val < y0 + (row + 1) + n) ↔
          (x0 ≤ x.val ∧ x.val < x0 + 8 ∧ y0 + row ≤ y.val ∧ y.val < y0 + row + (n + 1)) := by omega
      have h2 : ¬(y.val = y0 + row ∧ x0 + 0 ≤ x.val ∧ x.val < x0 + 0 + 8) := by omega
      rw [decide_eq_decide.mpr h1, decide_eq_false h2, Bool.false_and, Bool.xor_false]

/-- Rows of a sprite collide exactly when a set bit falls on a lit cell (R106). -/
theorem Canvas.collision_drawRows (m : Memory) (base x0 y0 : Nat) (count row : Nat) (c : Canvas) :
    (Canvas.drawRows m base x0 y0 row count c).collision = true ↔
      c.collision = true ∨ ∃ (x : Fin 64) (y : Fin 32),
        c.cell x y = true ∧ rowsBit m base x0 y0 row count x y = true := by
  induction count generalizing row c with
  | zero =>
    constructor
    · exact .inl
    · rintro (hc | ⟨x, y, -, h⟩)
      · exact hc
      · simp only [rowsBit, Bool.and_eq_true, decide_eq_true_eq] at h
        omega
  | succ n ih =>
    rw [Canvas.drawRows, ih, Canvas.collision_drawCols]
    simp only [rowsBit, Bool.and_eq_true, decide_eq_true_eq, Canvas.cell_drawCols]
    constructor
    · rintro ((hc | ⟨x, y, h, hbit, hc⟩) | ⟨x, y, hc, h, hbit⟩)
      · exact .inl hc
      · exact .inr ⟨x, y, hc, by omega, by rw [h.1, Nat.add_sub_cancel_left]; exact hbit⟩
      · have h2 : ¬(y.val = y0 + row ∧ x0 + 0 ≤ x.val ∧ x.val < x0 + 0 + 8) := by omega
        rw [decide_eq_false h2, Bool.false_and, Bool.xor_false] at hc
        exact .inr ⟨x, y, hc, by omega, hbit⟩
    · rintro (hc | ⟨x, y, hc, h, hbit⟩)
      · exact .inl (.inl hc)
      · by_cases hy : y.val = y0 + row
        · rw [hy, Nat.add_sub_cancel_left] at hbit
          exact .inl (.inr ⟨x, y, by omega, hbit, hc⟩)
        · have h2 : ¬(y.val = y0 + row ∧ x0 + 0 ≤ x.val ∧ x.val < x0 + 0 + 8) := by omega
          exact .inr ⟨x, y, by rw [decide_eq_false h2, Bool.false_and, Bool.xor_false]; exact hc, by omega, hbit⟩

end Sys2Proof.Machine
end

