-- ==== Sys2Proof/Laws/Encoding.lean ====
section
/-! SUPPORT. Every field of a word and every layout as arithmetic on natural numbers, so that a question about an encoding
is one about division and remainder. -/

namespace Sys2Proof

/-- Concatenation as arithmetic: `a ++ b` is `a * 2^n + b` (R8). -/
theorem toNat_append_eq {m n : Nat} (a : BitVec m) (b : BitVec n) : (a ++ b).toNat = a.toNat * 2 ^ n + b.toNat := by
  rw [BitVec.toNat_append, ← Nat.shiftLeft_add_eq_or_of_lt b.isLt, Nat.shiftLeft_eq]

/-- A bit slice as arithmetic (R8). -/
theorem toNat_extractLsb'_eq {m : Nat} (w : BitVec m) (lo len : Nat) :
    (w.extractLsb' lo len).toNat = w.toNat / 2 ^ lo % 2 ^ len := by
  rw [BitVec.extractLsb'_toNat, Nat.shiftRight_eq_div_pow]

/-! ### The fields of R52 -/

@[simp] theorem groupOf_toNat (w : Word) : (groupOf w).toNat = w.toNat / 4096 := by
  have := w.isLt
  simp only [groupOf, toNat_extractLsb'_eq]
  omega

@[simp] theorem fieldX_toNat (w : Word) : (fieldX w).toNat = w.toNat / 256 % 16 := toNat_extractLsb'_eq w 8 4

@[simp] theorem fieldY_toNat (w : Word) : (fieldY w).toNat = w.toNat / 16 % 16 := toNat_extractLsb'_eq w 4 4

@[simp] theorem fieldN_toNat (w : Word) : (fieldN w).toNat = w.toNat % 16 := by
  simp [fieldN]

@[simp] theorem fieldKK_toNat (w : Word) : (fieldKK w).toNat = w.toNat % 256 := by
  simp [fieldKK]

@[simp] theorem fieldNNN_toNat (w : Word) : (fieldNNN w).toNat = w.toNat % 4096 := by
  simp [fieldNNN]

/-! ### The layouts of R52, and the bytes of a word (R40) -/

@[simp] theorem encodeNNN_toNat (g : Nibble) (nnn : Imm12) : (encodeNNN g nnn).toNat = g.toNat * 4096 + nnn.toNat :=
  toNat_append_eq g nnn

@[simp] theorem encodeXKK_toNat (g x : Nibble) (kk : Byte) :
    (encodeXKK g x kk).toNat = g.toNat * 4096 + x.toNat * 256 + kk.toNat := by
  have h : (encodeXKK g x kk).toNat = (g ++ x : BitVec (4 + 4)).toNat * 2 ^ 8 + kk.toNat := toNat_append_eq (g ++ x) kk
  rw [h, toNat_append_eq g x]
  ring

@[simp] theorem encodeXYN_toNat (g x y n : Nibble) :
    (encodeXYN g x y n).toNat = g.toNat * 4096 + x.toNat * 256 + y.toNat * 16 + n.toNat := by
  have h : (encodeXYN g x y n).toNat = (g ++ x : BitVec (4 + 4)).toNat * 2 ^ 8 + (y ++ n : BitVec (4 + 4)).toNat :=
    toNat_append_eq (g ++ x) (y ++ n)
  rw [h, toNat_append_eq g x, toNat_append_eq y n]
  ring

@[simp] theorem wordOfBytes_toNat (hi lo : Byte) : (wordOfBytes hi lo).toNat = hi.toNat * 256 + lo.toNat :=
  toNat_append_eq hi lo

@[simp] theorem highByte_toNat (w : Word) : (highByte w).toNat = w.toNat / 256 := by
  have := w.isLt
  simp only [highByte, toNat_extractLsb'_eq]
  omega

@[simp] theorem lowByte_toNat (w : Word) : (lowByte w).toNat = w.toNat % 256 := by
  simp [lowByte]

/-! ### The masks of the opcode map (R60) on the layouts -/

theorem encodeNNN_and_F000 (g : Nibble) (nnn : Imm12) : encodeNNN g nnn &&& 0xF000#16 = encodeNNN g 0 := by
  have h : 0xF000#16 = encodeNNN 15#4 0#12 := by decide
  rw [h]
  simp only [encodeNNN]
  rw [BitVec.and_append]
  simp [show ∀ a : Nibble, a &&& 15#4 = a by decide]

theorem encodeXKK_and_F000 (g x : Nibble) (kk : Byte) : encodeXKK g x kk &&& 0xF000#16 = encodeXKK g 0 0 := by
  have h : 0xF000#16 = encodeXKK 15#4 0#4 0#8 := by decide
  rw [h]
  simp only [encodeXKK]
  rw [BitVec.and_append, BitVec.and_append]
  simp [show ∀ a : Nibble, a &&& 15#4 = a by decide]

theorem encodeXKK_and_F0FF (g x : Nibble) (kk : Byte) : encodeXKK g x kk &&& 0xF0FF#16 = encodeXKK g 0 kk := by
  have h : 0xF0FF#16 = encodeXKK 15#4 0#4 0xFF#8 := by decide
  rw [h]
  simp only [encodeXKK]
  rw [BitVec.and_append, BitVec.and_append]
  simp [show ∀ a : Nibble, a &&& 15#4 = a by decide, show ∀ a : Byte, a &&& 255#8 = a by decide]

theorem encodeXYN_and_F000 (g x y n : Nibble) : encodeXYN g x y n &&& 0xF000#16 = encodeXYN g 0 0 0 := by
  have h : 0xF000#16 = encodeXYN 15#4 0#4 0#4 0#4 := by decide
  rw [h]
  simp only [encodeXYN]
  rw [BitVec.and_append, BitVec.and_append, BitVec.and_append]
  simp [show ∀ a : Nibble, a &&& 15#4 = a by decide]

theorem encodeXYN_and_F00F (g x y n : Nibble) : encodeXYN g x y n &&& 0xF00F#16 = encodeXYN g 0 0 n := by
  have h : 0xF00F#16 = encodeXYN 15#4 0#4 0#4 15#4 := by decide
  rw [h]
  simp only [encodeXYN]
  rw [BitVec.and_append, BitVec.and_append, BitVec.and_append]
  simp [show ∀ a : Nibble, a &&& 15#4 = a by decide]

/-- A word is its two bytes (R40, R41). -/
@[simp] theorem wordOfBytes_high_low (w : Word) : wordOfBytes (highByte w) (lowByte w) = w := by
  apply BitVec.eq_of_toNat_eq
  have := w.isLt
  simp only [wordOfBytes_toNat, highByte_toNat, lowByte_toNat]
  omega

@[simp] theorem highByte_wordOfBytes (hi lo : Byte) : highByte (wordOfBytes hi lo) = hi := by
  apply BitVec.eq_of_toNat_eq
  have := lo.isLt
  simp only [highByte_toNat, wordOfBytes_toNat]
  omega

@[simp] theorem lowByte_wordOfBytes (hi lo : Byte) : lowByte (wordOfBytes hi lo) = lo := by
  apply BitVec.eq_of_toNat_eq
  have := lo.isLt
  simp only [lowByte_toNat, wordOfBytes_toNat]
  omega

end Sys2Proof
end

