-- ==== Sys2Proof/Laws/Exec.lean ====
section
/-! SUPPORT. What the conditional meanings answer, by their condition, and what follows when one answers a next state. -/

namespace Sys2Proof.Machine

open Sys2Proof

/-! ### Calls and returns (R75, R77) -/

theorem execCall_of_lt {s : State} (h : s.sp.val < 16) (nnn : Imm12) :
    execCall nnn s = .next { s with stack := s.stack.set s.sp.val s.pc h, sp := ⟨s.sp.val + 1, by omega⟩,
                                    pc := addrOperand nnn } := by
  rw [execCall, State.push?_of_lt h]
  rfl

theorem execCall_of_full {s : State} (h : s.sp.val = 16) (nnn : Imm12) :
    execCall nnn s = .fault (.stackOverflow s.instrAddr.toNat) := by
  rw [execCall, State.push?_of_full h]
  rfl

theorem execRet_of_pos {s : State} (h : 0 < s.sp.val) :
    execRet s = .next { s with sp := ⟨s.sp.val - 1, by omega⟩, pc := s.stack[s.sp.val - 1] } := by
  rw [execRet, State.pop?_of_pos h]
  rfl

theorem execRet_of_empty {s : State} (h : s.sp.val = 0) :
    execRet s = .fault (.stackUnderflow s.instrAddr.toNat) := by
  rw [execRet, State.pop?_of_empty h]
  rfl

/-! ### Index and sprite ranges (R120, R121) -/

theorem State.withIndexRange_of_le {s : State} {count : Nat} (h : s.i.toNat + count ≤ 4096) (k : Result) :
    s.withIndexRange count k = k :=
  if_pos ((inRange_iff _ _).mpr (.inr h))

theorem State.withIndexRange_of_gt {s : State} {count : Nat} (h0 : count ≠ 0) (h : 4096 < s.i.toNat + count)
    (k : Result) : s.withIndexRange count k = .fault (.outOfBoundsAccess .index (max s.i.toNat 4096)) :=
  if_neg (by
    simp only [inRange_iff, State.indexAddr_eq, Nat.add_zero]
    omega)

/-- The canvas a Dxyn ends with (R103). -/
def drawnCanvas (x y n : Nibble) (s : State) : Canvas :=
  Canvas.drawRows s.mem (s.indexAddr 0) (s.startCol x) (s.startRow y) 0 n.toNat ⟨s.fb, false⟩

theorem execDrw_of_le {s : State} {n : Nibble} (h : n.toNat = 0 ∨ s.i.toNat + n.toNat ≤ 4096) (x y : Nibble) :
    execDrw x y n s = .next ((s.setFB (drawnCanvas x y n s).fb).writeV vF (flagByte (drawnCanvas x y n s).collision)) :=
  if_pos ((inRange_iff _ _).mpr h)

theorem execDrw_of_gt {s : State} {n : Nibble} (h0 : n.toNat ≠ 0) (h : 4096 < s.i.toNat + n.toNat) (x y : Nibble) :
    execDrw x y n s = .fault (.outOfBoundsAccess .sprite (max s.i.toNat 4096)) :=
  if_neg (by
    simp only [inRange_iff, State.indexAddr_eq, Nat.add_zero]
    omega)

/-! ### Keys (R109 to R111, R122) -/

theorem State.withKey_of_lt {s : State} {x : Nibble} (h : (s.readV x).toNat < 16) (k : Bool → Result) :
    s.withKey x k = k s.key[(s.readV x).toNat] :=
  dif_pos h

theorem State.withKey_of_ge {s : State} {x : Nibble} (h : 16 ≤ (s.readV x).toNat) (k : Bool → Result) :
    s.withKey x k = .fault (.outOfBoundsAccess .key (s.readV x).toNat) :=
  dif_neg (Nat.not_lt.mpr h)

theorem lowestPressed_eq_none {key : Vector Bool 16} : lowestPressed key = none ↔ ∀ k : Fin 16, key[k] = false := by
  simp [lowestPressed, List.find?_eq_none]

theorem lowestPressed_eq_some {key : Vector Bool 16} {k : Fin 16} (h : key[k] = true)
    (hlow : ∀ j : Fin 16, j < k → key[j] = false) : lowestPressed key = some k := by
  cases hr : lowestPressed key with
  | none => exact absurd (lowestPressed_eq_none.mp hr k) (by simp [h])
  | some m =>
    rw [lowestPressed, List.find?_eq_some_iff_getElem] at hr
    obtain ⟨hm, i, hi, him, hbefore⟩ := hr
    simp only [List.length_finRange] at hi
    simp only [List.getElem_finRange] at him
    have hmi : m.val = i := by rw [← him]; rfl
    rcases lt_trichotomy k m with hkm | hkm | hkm
    · have := hbefore k.val (by rw [← hmi]; exact hkm)
      simp only [List.getElem_finRange] at this
      exact absurd h (by simpa using this)
    · rw [hkm]
    · exact absurd hm (by simp [hlow m hkm])

/-! ### What a meaning that answered a next state has done -/

theorem State.withIndexRange_next {s t : State} {count : Nat} {k : Result} (h : s.withIndexRange count k = .next t) :
    k = .next t ∧ (count = 0 ∨ s.i.toNat + count ≤ 4096) := by
  unfold State.withIndexRange raise at h
  split at h
  next hr => exact ⟨h, (inRange_iff _ _).mp hr⟩
  next => cases h

theorem execCall_next {s t : State} {nnn : Imm12} (h : execCall nnn s = .next t) :
    ∃ hs : s.sp.val < 16, t = { s with stack := s.stack.set s.sp.val s.pc hs, sp := ⟨s.sp.val + 1, by omega⟩,
                                       pc := addrOperand nnn } := by
  by_cases hs : s.sp.val < 16
  · rw [execCall_of_lt hs] at h
    exact ⟨hs, (Host.Outcome.next.inj h).symm⟩
  · rw [execCall_of_full (by omega)] at h
    cases h

theorem execRet_next {s t : State} (h : execRet s = .next t) :
    ∃ _ : 0 < s.sp.val, t = { s with sp := ⟨s.sp.val - 1, by omega⟩, pc := s.stack[s.sp.val - 1] } := by
  by_cases hs : 0 < s.sp.val
  · rw [execRet_of_pos hs] at h
    exact ⟨hs, (Host.Outcome.next.inj h).symm⟩
  · rw [execRet_of_empty (by omega)] at h
    cases h

theorem State.withKey_next {s t : State} {x : Nibble} {k : Bool → Result} (h : s.withKey x k = .next t) :
    ∃ _ : (s.readV x).toNat < 16, k s.key[(s.readV x).toNat] = .next t := by
  by_cases hk : (s.readV x).toNat < 16
  · rw [State.withKey_of_lt hk] at h
    exact ⟨hk, h⟩
  · rw [State.withKey_of_ge (by omega)] at h
    cases h

theorem execSkp_next {s t : State} {x : Nibble} (h : execSkp x s = .next t) :
    ∃ _ : (s.readV x).toNat < 16, t = s.skipIf s.key[(s.readV x).toNat] := by
  rw [execSkp] at h
  obtain ⟨hk, h⟩ := State.withKey_next h
  exact ⟨hk, (Host.Outcome.next.inj h).symm⟩

theorem execSknp_next {s t : State} {x : Nibble} (h : execSknp x s = .next t) :
    ∃ _ : (s.readV x).toNat < 16, t = s.skipIf !s.key[(s.readV x).toNat] := by
  rw [execSknp] at h
  obtain ⟨hk, h⟩ := State.withKey_next h
  exact ⟨hk, (Host.Outcome.next.inj h).symm⟩

theorem execDrw_next {s t : State} {x y n : Nibble} (h : execDrw x y n s = .next t) :
    t = (s.setFB (drawnCanvas x y n s).fb).writeV vF (flagByte (drawnCanvas x y n s).collision) ∧
      (n.toNat = 0 ∨ s.i.toNat + n.toNat ≤ 4096) := by
  by_cases hr : n.toNat = 0 ∨ s.i.toNat + n.toNat ≤ 4096
  · rw [execDrw_of_le hr] at h
    exact ⟨(Host.Outcome.next.inj h).symm, hr⟩
  · rw [execDrw_of_gt (by omega) (by omega)] at h
    cases h

/-- Skipping changes the pc and nothing else (R78). -/
theorem State.skipIf_eq (s : State) (c : Bool) : s.skipIf c = { s with pc := if c = true then s.pc + 2 else s.pc } := by
  unfold State.skipIf
  split <;> rfl

/-- What an instruction that answered a next state has done: for the ones that always answer one, the state itself; for
the conditional ones, which fields it is made of (their own lemmas above give those). -/
theorem exec_next {i : Instr} {s t : State} (h : exec i s = .next t) :
    t = match i with
      | .cls => s.setFB darkPlane
      | .ret => { s with sp := t.sp, pc := t.pc }
      | .jp nnn => s.setPc (addrOperand nnn)
      | .call nnn => { s with stack := t.stack, sp := t.sp, pc := addrOperand nnn }
      | .seImm x kk => s.skipIf (s.readV x = kk)
      | .sneImm x kk => s.skipIf (s.readV x ≠ kk)
      | .seReg x y => s.skipIf (s.readV x = s.readV y)
      | .sneReg x y => s.skipIf (s.readV x ≠ s.readV y)
      | .ldImm x kk => s.writeV x kk
      | .addImm x kk => s.writeV x (s.readV x + kk)
      | .ldReg x y => s.writeV x (s.readV y)
      | .orReg x y => s.writeV x (s.readV x ||| s.readV y)
      | .andReg x y => s.writeV x (s.readV x &&& s.readV y)
      | .xorReg x y => s.writeV x (s.readV x ^^^ s.readV y)
      | .addReg x y => s.writeResultFlag x (s.readV x + s.readV y) (carryFlag (s.readV x) (s.readV y))
      | .sub x y => s.writeResultFlag x (s.readV x - s.readV y) (notBorrowFlag (s.readV x) (s.readV y))
      | .shr x _ => s.writeResultFlag x (s.readV x >>> 1) (shiftOutRight (s.readV x))
      | .subn x y => s.writeResultFlag x (s.readV y - s.readV x) (notBorrowFlag (s.readV y) (s.readV x))
      | .shl x _ => s.writeResultFlag x (s.readV x <<< 1) (shiftOutLeft (s.readV x))
      | .ldI nnn => s.setI (addrOperand nnn)
      | .jpV0 nnn => s.setPc (wordOfByte (s.readV 0) + addrOperand nnn)
      | .rnd x kk => s.drawRandom.2.writeV x (s.drawRandom.1 &&& kk)
      | .drw x y n => (s.setFB (drawnCanvas x y n s).fb).writeV vF (flagByte (drawnCanvas x y n s).collision)
      | .skp _ | .sknp _ => { s with pc := t.pc }
      | .ldVxDT x => s.writeV x s.dt
      | .ldVxK _ => { s with pc := t.pc, v := t.v }
      | .ldDTVx x => s.setDT (s.readV x)
      | .ldSTVx x => s.setST (s.readV x)
      | .addI x => s.setI (s.i + wordOfByte (s.readV x))
      | .ldF x => s.setI (glyphAddr (s.readV x))
      | .ldB x => s.setMem (s.mem.writeBytes (s.indexAddr 0) (bcdDigits (s.readV x)))
      | .ldMemVx x => s.setMem (s.mem.writeBytes (s.indexAddr 0) (s.blockBytes x))
      | .ldVxMem x => State.loadBlock (s.indexAddr 0) 0 (blockCount x) s := by
  cases i
  case ret => obtain ⟨-, rfl⟩ := execRet_next h; rfl
  case call nnn => obtain ⟨-, rfl⟩ := execCall_next h; rfl
  case drw x y n => exact (execDrw_next h).1
  case skp x =>
    obtain ⟨-, rfl⟩ := execSkp_next h
    simp only [State.skipIf_eq]
  case sknp x =>
    obtain ⟨-, rfl⟩ := execSknp_next h
    simp only [State.skipIf_eq]
  case ldVxK x => simp only [exec, execLdVxK] at h; split at h <;> cases h <;> rfl
  case ldB x => obtain ⟨h, -⟩ := State.withIndexRange_next h; cases h; rfl
  case ldMemVx x => obtain ⟨h, -⟩ := State.withIndexRange_next h; cases h; rfl
  case ldVxMem x => obtain ⟨h, -⟩ := State.withIndexRange_next h; cases h; rfl
  all_goals (cases h; rfl)

/-! ### No meaning refuses -/

/-- Every instruction has a meaning: `exec` never refuses. -/
theorem exec_ne_refused (i : Instr) (s : State) (r : Refusal) : exec i s ≠ .refused r := by
  intro h
  cases i
  case call nnn =>
    by_cases hs : s.sp.val < 16
    · rw [exec, execCall_of_lt hs] at h; cases h
    · rw [exec, execCall_of_full (by omega)] at h; cases h
  case ret =>
    by_cases hs : 0 < s.sp.val
    · rw [exec, execRet_of_pos hs] at h; cases h
    · rw [exec, execRet_of_empty (by omega)] at h; cases h
  case ldB x => simp only [exec, execLdB, State.withIndexRange, raise] at h; split at h <;> cases h
  case ldMemVx x => simp only [exec, execLdMemVx, State.withIndexRange, raise] at h; split at h <;> cases h
  case ldVxMem x => simp only [exec, execLdVxMem, State.withIndexRange, raise] at h; split at h <;> cases h
  case drw x y n => simp only [exec, execDrw, raise] at h; split at h <;> cases h
  case skp x => simp only [exec, execSkp, State.withKey, raise] at h; split at h <;> cases h
  case sknp x => simp only [exec, execSknp, State.withKey, raise] at h; split at h <;> cases h
  case ldVxK x => simp only [exec, execLdVxK] at h; split at h <;> cases h
  all_goals cases h

end Sys2Proof.Machine
end

