-- ==== Sys2Proof/Laws/PerInstr.lean ====
section
/-! SUPPORT. The statement made for every instruction as syntax: its word matches its row of the opcode map (R60). -/

namespace Sys2Proof.Laws.RowMatch

open Sys2Proof

/-- The word of an instruction is one of its row's: `w AND mask = match` (R60). -/
def Statement (i : Instr) : Prop := encode i &&& i.row.mask = i.row.bits

theorem cls : Statement .cls := rfl
theorem ret : Statement .ret := rfl
theorem jp (nnn : Imm12) : Statement (.jp nnn) := encodeNNN_and_F000 0x1#4 nnn
theorem call (nnn : Imm12) : Statement (.call nnn) := encodeNNN_and_F000 0x2#4 nnn
theorem seImm (x : Nibble) (kk : Byte) : Statement (.seImm x kk) := encodeXKK_and_F000 0x3#4 x kk
theorem sneImm (x : Nibble) (kk : Byte) : Statement (.sneImm x kk) := encodeXKK_and_F000 0x4#4 x kk
theorem seReg (x y : Nibble) : Statement (.seReg x y) := encodeXYN_and_F00F 0x5#4 x y 0x0#4
theorem ldImm (x : Nibble) (kk : Byte) : Statement (.ldImm x kk) := encodeXKK_and_F000 0x6#4 x kk
theorem addImm (x : Nibble) (kk : Byte) : Statement (.addImm x kk) := encodeXKK_and_F000 0x7#4 x kk
theorem ldReg (x y : Nibble) : Statement (.ldReg x y) := encodeXYN_and_F00F 0x8#4 x y 0x0#4
theorem orReg (x y : Nibble) : Statement (.orReg x y) := encodeXYN_and_F00F 0x8#4 x y 0x1#4
theorem andReg (x y : Nibble) : Statement (.andReg x y) := encodeXYN_and_F00F 0x8#4 x y 0x2#4
theorem xorReg (x y : Nibble) : Statement (.xorReg x y) := encodeXYN_and_F00F 0x8#4 x y 0x3#4
theorem addReg (x y : Nibble) : Statement (.addReg x y) := encodeXYN_and_F00F 0x8#4 x y 0x4#4
theorem sub (x y : Nibble) : Statement (.sub x y) := encodeXYN_and_F00F 0x8#4 x y 0x5#4
theorem shr (x y : Nibble) : Statement (.shr x y) := encodeXYN_and_F00F 0x8#4 x y 0x6#4
theorem subn (x y : Nibble) : Statement (.subn x y) := encodeXYN_and_F00F 0x8#4 x y 0x7#4
theorem shl (x y : Nibble) : Statement (.shl x y) := encodeXYN_and_F00F 0x8#4 x y 0xE#4
theorem sneReg (x y : Nibble) : Statement (.sneReg x y) := encodeXYN_and_F00F 0x9#4 x y 0x0#4
theorem ldI (nnn : Imm12) : Statement (.ldI nnn) := encodeNNN_and_F000 0xA#4 nnn
theorem jpV0 (nnn : Imm12) : Statement (.jpV0 nnn) := encodeNNN_and_F000 0xB#4 nnn
theorem rnd (x : Nibble) (kk : Byte) : Statement (.rnd x kk) := encodeXKK_and_F000 0xC#4 x kk
theorem drw (x y n : Nibble) : Statement (.drw x y n) := encodeXYN_and_F000 0xD#4 x y n
theorem skp (x : Nibble) : Statement (.skp x) := encodeXKK_and_F0FF 0xE#4 x 0x9E#8
theorem sknp (x : Nibble) : Statement (.sknp x) := encodeXKK_and_F0FF 0xE#4 x 0xA1#8
theorem ldVxDT (x : Nibble) : Statement (.ldVxDT x) := encodeXKK_and_F0FF 0xF#4 x 0x07#8
theorem ldVxK (x : Nibble) : Statement (.ldVxK x) := encodeXKK_and_F0FF 0xF#4 x 0x0A#8
theorem ldDTVx (x : Nibble) : Statement (.ldDTVx x) := encodeXKK_and_F0FF 0xF#4 x 0x15#8
theorem ldSTVx (x : Nibble) : Statement (.ldSTVx x) := encodeXKK_and_F0FF 0xF#4 x 0x18#8
theorem addI (x : Nibble) : Statement (.addI x) := encodeXKK_and_F0FF 0xF#4 x 0x1E#8
theorem ldF (x : Nibble) : Statement (.ldF x) := encodeXKK_and_F0FF 0xF#4 x 0x29#8
theorem ldB (x : Nibble) : Statement (.ldB x) := encodeXKK_and_F0FF 0xF#4 x 0x33#8
theorem ldMemVx (x : Nibble) : Statement (.ldMemVx x) := encodeXKK_and_F0FF 0xF#4 x 0x55#8
theorem ldVxMem (x : Nibble) : Statement (.ldVxMem x) := encodeXKK_and_F0FF 0xF#4 x 0x65#8

end Sys2Proof.Laws.RowMatch
end

