-- ==== Sys2Proof/Laws/Step.lean ====
section
/-! SUPPORT. The inversion of a step: what it has done when it answers a next state, and when it faults. -/

namespace Sys2Proof.Machine

open Sys2Proof

/-- Executing what was decoded never refuses. -/
theorem execFetched_ne_refused (f : Fetched) (s : State) (r : Refusal) : execFetched f s ≠ .refused r := by
  cases f with
  | instr i => exact exec_ne_refused i s r
  | noOp w => intro h; cases h

theorem step_of_lt {s : State} (h : s.pc.toNat + 1 < 4096) :
    step s = match execFetched (decode s.wordAtPc) s.advance with
      | .next t => .next t.tick
      | .fault f => .fault f
      | .refused r => .refused r := by
  unfold step
  split
  · next f hf => rw [State.fetch_of_lt h] at hf; cases hf
  · next w hw => rw [State.fetch_of_lt h] at hw; cases hw; rfl

theorem step_of_ge {s : State} (h : 4096 ≤ s.pc.toNat + 1) :
    step s = .fault (.outOfBoundsAccess .fetch (max s.pc.toNat 4096)) := by
  rw [step, State.fetch_of_ge h]
  rfl

/-- A step that answers a next state has fetched, executed what it decoded, and ticked (R73). -/
theorem step_eq_next {s t : State} :
    step s = .next t ↔
      s.pc.toNat + 1 < 4096 ∧ ∃ u, execFetched (decode s.wordAtPc) s.advance = .next u ∧ t = u.tick := by
  by_cases h : s.pc.toNat + 1 < 4096
  · rw [step_of_lt h]
    cases he : execFetched (decode s.wordAtPc) s.advance with
    | next u => simp [h, eq_comm]
    | fault f => simp
    | refused r => simp
  · rw [step_of_ge (by omega)]
    simp [h]

/-- A step faults at the fetch or in the execute stage (R73, R125). -/
theorem step_eq_fault {s : State} {f : Fault} :
    step s = .fault f ↔
      (4096 ≤ s.pc.toNat + 1 ∧ f = .outOfBoundsAccess .fetch (max s.pc.toNat 4096)) ∨
      (s.pc.toNat + 1 < 4096 ∧ execFetched (decode s.wordAtPc) s.advance = .fault f) := by
  by_cases h : s.pc.toNat + 1 < 4096
  · have h' : ¬(4096 ≤ s.pc.toNat + 1) := by omega
    rw [step_of_lt h]
    cases he : execFetched (decode s.wordAtPc) s.advance with
    | next u => simp [h']
    | fault g => simp [h, h']
    | refused r => simp [h']
  · have h' : 4096 ≤ s.pc.toNat + 1 := by omega
    rw [step_of_ge h']
    simp [h, h', eq_comm]

/-- A step never refuses (R71). -/
theorem step_ne_refused (s : State) (r : Refusal) : step s ≠ .refused r := by
  by_cases h : s.pc.toNat + 1 < 4096
  · rw [step_of_lt h]
    cases he : execFetched (decode s.wordAtPc) s.advance with
    | next u => simp
    | fault g => simp
    | refused q => exact absurd he (execFetched_ne_refused _ _ q)
  · rw [step_of_ge (by omega)]
    simp

/-- A run of any machine whose first step answers a next state goes on from it. -/
theorem run_of_next (M : Host.Core) {s t : M.State} (h : M.step s = .next t) (n : Nat) : M.run (n + 1) s = M.run n t := by
  rw [Host.Core.run.eq_2, h]

/-- The same of this machine. -/
theorem core_run_of_next {s t : State} (h : step s = .next t) (n : Nat) :
    Host.Core.run core (n + 1) s = Host.Core.run core n t :=
  run_of_next core h n

end Sys2Proof.Machine
end

