-- ==== Sys2Proof/Tests/Slice0.lean ====
section
/-! SUPPORT. Tests and witnesses. The words and the expected values of the tests are those of the spec (the patterns of
R60, and the vectors of spec/95_test_vectors.md by their ids). A witness shows a state and operands that meet the
hypotheses of a statement, at the ends of their ranges. -/

namespace Sys2Proof.Tests

open Sys2Proof Sys2Proof.Machine

set_option maxRecDepth 8000

/-! ### Small states -/

def stateOf : Result → Option State
  | .next t => some t
  | _ => none

def faultOf : Result → Option Fault
  | .fault f => some f
  | _ => none

/-- The fresh machine with some registers set. -/
def regs (rs : List (Nibble × Byte)) : State := rs.foldl (fun s p => s.writeV p.1 p.2) State.reset

def withI (i : Word) (s : State) : State := { s with i := i }

def withPc (pc : Word) (s : State) : State := { s with pc := pc }

def withMem (base : Nat) (bs : List Byte) (s : State) : State := s.setMem (s.mem.writeBytes base bs)

def keys (ks : List (Fin 16)) (s : State) : State := ks.foldl (fun s k => s.setKey k true) s

def lit (x : Fin 64) (y : Fin 32) (s : State) : State := s.setFB (s.fb.set x (s.fb[x].set y true))

/-- One step with a word placed at pc. -/
def run1 (w : Nat) (s : State) : Option State := stateOf (step (s.withFetchWord 16 w))

/-- The fault of that step. -/
def fault1 (w : Nat) (s : State) : Option Fault := faultOf (step (s.withFetchWord 16 w))

/-- pc after that step. -/
def pc1 (w : Nat) (s : State) : Option Word := (run1 w s).map (·.pc)

/-- Some registers after that step. -/
def v1 (w : Nat) (rs : List Nibble) (s : State) : Option (List Byte) := (run1 w s).map fun t => rs.map t.readV

/-- `len` bytes of memory after that step. -/
def mem1 (w base len : Nat) (s : State) : Option (List Byte) :=
  (run1 w s).map fun t => (List.range len).map fun j => t.mem.read (base + j)

/-! ### WellFormed refuses an ill-formed term, one or more for each of its checks -/

theorem test_wf_group0 : (Fetched.noOp 0x00E0).wellFormed = false ∧ (Fetched.noOp 0x00EE).wellFormed = false ∧
    (Fetched.noOp 0x00E1).wellFormed = true := by decide

theorem test_wf_group5 : (Fetched.noOp 0x5120).wellFormed = false ∧ (Fetched.noOp 0x5121).wellFormed = true := by decide

theorem test_wf_group8 : (Fetched.noOp 0x8127).wellFormed = false ∧ (Fetched.noOp 0x812E).wellFormed = false ∧
    (Fetched.noOp 0x8128).wellFormed = true ∧ (Fetched.noOp 0x812F).wellFormed = true := by decide

theorem test_wf_group9 : (Fetched.noOp 0x9120).wellFormed = false ∧ (Fetched.noOp 0x912F).wellFormed = true := by decide

theorem test_wf_groupE : (Fetched.noOp 0xE19E).wellFormed = false ∧ (Fetched.noOp 0xE1A1).wellFormed = false ∧
    (Fetched.noOp 0xE19F).wellFormed = true := by decide

theorem test_wf_groupF : (Fetched.noOp 0xF107).wellFormed = false ∧ (Fetched.noOp 0xF165).wellFormed = false ∧
    (Fetched.noOp 0xF166).wellFormed = true := by decide

theorem test_wf_other_groups : (Fetched.noOp 0x1234).wellFormed = false ∧ (Fetched.noOp 0x7000).wellFormed = false ∧
    (Fetched.noOp 0xDFFF).wellFormed = false := by decide

/-! ### Decoding: a word for every constructor, written from the patterns of R60 -/

theorem test_decode_group0 : decode 0x00E0 = .instr .cls ∧ decode 0x00EE = .instr .ret ∧
    decode 0x00E1 = .noOp 0x00E1 ∧ decode 0x0123 = .noOp 0x0123 := by decide

theorem test_decode_control : decode 0x1ABC = .instr (.jp 0xABC) ∧ decode 0x2DEF = .instr (.call 0xDEF) ∧
    decode 0x3A5C = .instr (.seImm 10 0x5C) ∧ decode 0x4B3E = .instr (.sneImm 11 0x3E) ∧
    decode 0x5C70 = .instr (.seReg 12 7) ∧ decode 0x9D60 = .instr (.sneReg 13 6) ∧
    decode 0xB9A4 = .instr (.jpV0 0x9A4) := by decide

theorem test_decode_alu : decode 0x65A3 = .instr (.ldImm 5 0xA3) ∧ decode 0x7E91 = .instr (.addImm 14 0x91) ∧
    decode 0x8A50 = .instr (.ldReg 10 5) ∧ decode 0x8A51 = .instr (.orReg 10 5) ∧
    decode 0x8A52 = .instr (.andReg 10 5) ∧ decode 0x8A53 = .instr (.xorReg 10 5) ∧
    decode 0x8A54 = .instr (.addReg 10 5) ∧ decode 0x8A55 = .instr (.sub 10 5) ∧
    decode 0x8A56 = .instr (.shr 10 5) ∧ decode 0x8A57 = .instr (.subn 10 5) ∧
    decode 0x8A5E = .instr (.shl 10 5) ∧ decode 0xC73D = .instr (.rnd 7 0x3D) := by decide

theorem test_decode_index_display : decode 0xA5C3 = .instr (.ldI 0x5C3) ∧ decode 0xD6B9 = .instr (.drw 6 11 9) := by decide

theorem test_decode_groupE : decode 0xE59E = .instr (.skp 5) ∧ decode 0xEAA1 = .instr (.sknp 10) ∧
    decode 0xE000 = .noOp 0xE000 := by decide

theorem test_decode_groupF : decode 0xF507 = .instr (.ldVxDT 5) ∧ decode 0xFA0A = .instr (.ldVxK 10) ∧
    decode 0xF515 = .instr (.ldDTVx 5) ∧ decode 0xFA18 = .instr (.ldSTVx 10) ∧ decode 0xF51E = .instr (.addI 5) ∧
    decode 0xFA29 = .instr (.ldF 10) ∧ decode 0xF533 = .instr (.ldB 5) ∧ decode 0xFA55 = .instr (.ldMemVx 10) ∧
    decode 0xF565 = .instr (.ldVxMem 5) ∧ decode 0xF0FF = .noOp 0xF0FF := by decide

/-- S-9, S-10, CF-18: the no-op words of the groups 5, 8 and 9. -/
theorem test_decode_no_ops : decode 0x5121 = .noOp 0x5121 ∧ decode 0x8008 = .noOp 0x8008 ∧
    decode 0x800D = .noOp 0x800D ∧ decode 0x9121 = .noOp 0x9121 := by decide

theorem test_decode_bytes : decodeBytes [0x12, 0x34, 0x56] = .ok (.instr (.jp 0x234), [0x56]) ∧
    decodeBytes [0x12] = .error .truncated ∧ decodeBytes [] = .error .truncated := ⟨rfl, rfl, rfl⟩

theorem test_decodeTableWord : decodeTableWord 16 0xD125 = some (.drw 1 2 5) ∧ decodeTableWord 16 0x5121 = none := by
  decide

/-! ### The step (S-) -/

/-- S-1 -/
theorem test_fetch_big_endian : pc1 0x1234 .reset = some 0x234 := by decide

/-- S-2 -/
theorem test_fetch_odd_pc : ((run1 0x6107 (withPc 0x201 .reset)).map fun t => (t.readV 1, t.pc)) = some (0x07, 0x203) := by
  decide

/-- S-3 -/
theorem test_no_op_at_last_word : (stateOf (step (withPc 0xFFE .reset))).map (·.pc) = some 0x1000 := by decide

/-- S-4, S-5 -/
theorem test_fetch_faults : faultOf (step (withPc 0x1000 .reset)) = some (.outOfBoundsAccess .fetch 0x1000) ∧
    faultOf (step (withPc 0xFFF .reset)) = some (.outOfBoundsAccess .fetch 0x1000) := by decide

/-- S-6, S-7 -/
theorem test_tick : ((run1 0x0000 { State.reset with dt := 2, st := 1 }).map fun t => (t.dt, t.st)) = some (1, 0) ∧
    ((run1 0x0000 .reset).map fun t => (t.dt, t.st)) = some (0, 0) := by decide

/-! ### Control flow (CF-) -/

/-- CF-1, CF-3 -/
theorem test_jp : pc1 0x1ABC .reset = some 0xABC ∧ pc1 0x1FFF .reset = some 0xFFF := by decide

/-- CF-4 -/
theorem test_call : ((run1 0x2400 .reset).map fun t => (t.stack[0], t.sp, t.pc)) = some (0x202, 1, 0x400) := by decide

/-- CF-5 -/
theorem test_call_overflow : fault1 0x2400 { State.reset with sp := 16 } = some (.stackOverflow 0x200) := by decide

/-- CF-8 -/
theorem test_ret : ((run1 0x00EE { State.reset with sp := 2, stack := (State.reset.stack.set 0 0x202).set 1 0x40A }).map
    fun t => (t.pc, t.sp)) = some (0x40A, 1) := by decide

/-- CF-7 -/
theorem test_ret_underflow : fault1 0x00EE .reset = some (.stackUnderflow 0x200) := by decide

/-- CF-9, CF-10 -/
theorem test_seImm : pc1 0x3105 (regs [(1, 0x05)]) = some 0x204 ∧ pc1 0x3105 (regs [(1, 0x06)]) = some 0x202 := by decide

/-- CF-22 -/
theorem test_skip_out_of_memory : pc1 0x3100 (withPc 0xFFC .reset) = some 0x1000 := by decide

/-- CF-11, CF-12 -/
theorem test_sneImm : pc1 0x4105 (regs [(1, 0x05)]) = some 0x202 ∧ pc1 0x4105 (regs [(1, 0x06)]) = some 0x204 := by decide

/-- CF-13, CF-14, CF-15 -/
theorem test_seReg : pc1 0x5120 (regs [(1, 0x7F), (2, 0x7F)]) = some 0x204 ∧
    pc1 0x5120 (regs [(1, 0x7F), (2, 0x7E)]) = some 0x202 ∧ pc1 0x5330 (regs [(3, 1)]) = some 0x204 := by decide

/-- CF-16, CF-17 -/
theorem test_sneReg : pc1 0x9120 (regs [(1, 0x7F), (2, 0x7E)]) = some 0x204 ∧
    pc1 0x9120 (regs [(1, 0x7F), (2, 0x7F)]) = some 0x202 := by decide

/-- CF-20, CF-21 -/
theorem test_jpV0 : pc1 0xB300 (regs [(0, 0x10)]) = some 0x310 ∧ pc1 0xBFFF (regs [(0, 0xFF)]) = some 0x10FE := by decide

/-! ### ALU (AL-) -/

/-- AL-1 -/
theorem test_ldImm : v1 0x61AB [1] .reset = some [0xAB] := by decide

/-- AL-3 -/
theorem test_addImm : v1 0x71F0 [1, 15] (regs [(1, 0x10), (15, 0x55)]) = some [0x00, 0x55] := by decide

/-- AL-4 -/
theorem test_ldReg : v1 0x8120 [1, 2] (regs [(2, 0x9C)]) = some [0x9C, 0x9C] := by decide

/-- AL-5 -/
theorem test_orReg : v1 0x8121 [1, 15] (regs [(1, 0xF0), (2, 0x3C), (15, 0x55)]) = some [0xFC, 0x55] := by decide

/-- AL-6 -/
theorem test_andReg : v1 0x8122 [1, 15] (regs [(1, 0xF0), (2, 0x3C), (15, 0x55)]) = some [0x30, 0x55] := by decide

/-- AL-7, AL-8 -/
theorem test_xorReg : v1 0x8123 [1, 15] (regs [(1, 0xF0), (2, 0x3C), (15, 0x55)]) = some [0xCC, 0x55] ∧
    v1 0x8113 [1] (regs [(1, 0x5A)]) = some [0x00] := by decide

/-- AL-9, AL-10 -/
theorem test_addReg : v1 0x8124 [1, 15] (regs [(1, 0xFF), (2, 0x01)]) = some [0x00, 1] ∧
    v1 0x8124 [1, 15] (regs [(1, 0x7F), (2, 0x80), (15, 9)]) = some [0xFF, 0] := by decide

/-- AL-12, AL-13 -/
theorem test_addReg_vF : v1 0x8F14 [15] (regs [(15, 0xFF), (1, 0x03)]) = some [1] ∧
    v1 0x80F4 [0, 15] (regs [(15, 0x01), (0, 0xFF)]) = some [0x00, 1] := by decide

/-- AL-14, AL-15 -/
theorem test_sub : v1 0x8125 [1, 15] (regs [(1, 0x05), (2, 0x03)]) = some [0x02, 1] ∧
    v1 0x8125 [1, 15] (regs [(1, 0x03), (2, 0x05)]) = some [0xFE, 0] := by decide

/-- AL-16, AL-18 -/
theorem test_sub_equal_vF : v1 0x8125 [1, 15] (regs [(1, 0x07), (2, 0x07)]) = some [0x00, 0] ∧
    v1 0x8F15 [15] (regs [(15, 0x10), (1, 0x01)]) = some [1] := by decide

/-- AL-23, AL-24 -/
theorem test_shr : v1 0x8126 [1, 2, 15] (regs [(1, 0x04), (2, 0xFF)]) = some [0x02, 0xFF, 0] ∧
    v1 0x8F06 [15] (regs [(15, 0x03)]) = some [1] := by decide

/-- AL-26, AL-27 -/
theorem test_subn : v1 0x8127 [1, 15] (regs [(1, 0x03), (2, 0x05)]) = some [0x02, 1] ∧
    v1 0x8127 [1, 15] (regs [(1, 0x05), (2, 0x03)]) = some [0xFE, 0] := by decide

/-- AL-28 -/
theorem test_subn_equal : v1 0x8127 [1, 15] (regs [(1, 0x07), (2, 0x07)]) = some [0x00, 0] := by decide

/-- AL-29, AL-33 -/
theorem test_shl : v1 0x810E [1, 15] (regs [(1, 0x81)]) = some [0x02, 1] ∧
    v1 0x8F0E [15] (regs [(15, 0x40)]) = some [0] := by decide

/-- AL-35: the draw itself is free, so a test can look only at what it does not reach. -/
theorem test_rnd : ((run1 0xC10F .reset).map fun t => (t.pc, t.draws, t.readV 15)) = some (0x202, 1, 0) := by decide

/-! ### Index and memory (IM-) -/

/-- IM-1 -/
theorem test_ldI : (run1 0xA123 .reset).map (·.i) = some 0x123 := by decide

/-- IM-2, IM-3 -/
theorem test_addI : ((run1 0xF11E (withI 0xFFFF (regs [(1, 2), (15, 7)]))).map fun t => (t.i, t.readV 15)) = some (0x0001, 7) ∧
    (run1 0xF11E (withI 0x0FFF (regs [(1, 1)]))).map (·.i) = some 0x1000 := by decide

/-- IM-6, IM-8 -/
theorem test_ldF : (run1 0xF129 (regs [(1, 0x0F)])).map (·.i) = some 0x09B ∧
    (run1 0xF129 (regs [(1, 0xFF)])).map (·.i) = some 0x54B := by decide

/-- IM-13, IM-14 -/
theorem test_ldB : mem1 0xFA33 0x300 3 (withI 0x300 (regs [(10, 0x9C)])) = some [1, 5, 6] ∧
    mem1 0xF133 0xFFD 3 (withI 0xFFD (regs [(1, 0xFF)])) = some [2, 5, 5] := by decide

/-- IM-15 -/
theorem test_ldB_fault : fault1 0xF133 (withI 0xFFE .reset) = some (.outOfBoundsAccess .index 0x1000) := by decide

/-- IM-16 -/
theorem test_ldMemVx : mem1 0xF255 0x300 4 (withI 0x300 (regs [(0, 0x11), (1, 0x22), (2, 0x33), (3, 0x44)])) =
    some [0x11, 0x22, 0x33, 0x00] := by decide

/-- IM-19, IM-24 -/
theorem test_ldMemVx_bounds : fault1 0xFF55 (withI 0xFF1 .reset) = some (.outOfBoundsAccess .index 0x1000) ∧
    mem1 0xF055 0x050 2 (withI 0x050 (regs [(0, 0xAA)])) = some [0xAA, 0x90] := by decide

/-- IM-20 -/
theorem test_ldVxMem : v1 0xF265 [0, 1, 2, 3] (withMem 0x300 [0x11, 0x22, 0x33, 0x99] (withI 0x300 (regs [(3, 0x44)]))) =
    some [0x11, 0x22, 0x33, 0x44] := by decide

/-- IM-22, IM-25 -/
theorem test_ldVxMem_bounds : fault1 0xFF65 (withI 0xFF1 .reset) = some (.outOfBoundsAccess .index 0x1000) ∧
    v1 0xF065 [0] (withI 0x050 .reset) = some [0xF0] := by decide

/-! ### Display (DP-) -/

/-- DP-1 -/
theorem test_cls : (run1 0x00E0 (lit 63 31 (lit 0 0 .reset))).map (·.fb) = some State.reset.fb := by decide

/-- DP-5: columns 64 to 67 are clipped, and nothing wraps. -/
theorem test_drw_clips : ((run1 0xD011 (withMem 0x300 [0xFF] (withI 0x300 (regs [(0, 0x3C)])))).map fun t =>
    ([t.cell 59 0, t.cell 60 0, t.cell 63 0, t.cell 0 0, t.cell 0 1], t.readV 15)) =
    some ([false, true, true, false, false], 0) := by decide

/-- DP-9, DP-13: the coordinates come from the registers before VF is written; a lit cell under a set bit is a collision. -/
theorem test_drw_vF : ((run1 0xDF11 (withMem 0x300 [0x80] (withI 0x300 (regs [(15, 5)])))).map fun t =>
    (t.cell 5 0, t.readV 15)) = some (true, 0) ∧
    ((run1 0xD011 (withMem 0x300 [0x80] (withI 0x300 (lit 0 0 .reset)))).map fun t =>
    (t.cell 0 0, t.readV 15)) = some (false, 1) := by decide

/-! ### Keypad and timers (KT-) -/

/-- KT-1, KT-2 -/
theorem test_skp : pc1 0xE09E (keys [5] (regs [(0, 5)])) = some 0x204 ∧ pc1 0xE09E (regs [(0, 5)]) = some 0x202 := by decide

/-- KT-5 -/
theorem test_skp_fault : fault1 0xE09E (regs [(0, 0x10)]) = some (.outOfBoundsAccess .key 0x10) := by decide

/-- KT-3, KT-4 -/
theorem test_sknp : pc1 0xE0A1 (keys [5] (regs [(0, 5)])) = some 0x202 ∧ pc1 0xE0A1 (regs [(0, 5)]) = some 0x204 := by decide

/-- KT-6 -/
theorem test_sknp_fault : fault1 0xE0A1 (regs [(0, 0xFF)]) = some (.outOfBoundsAccess .key 0xFF) := by decide

/-- KT-7 -/
theorem test_ldVxK_waits : ((run1 0xF20A { regs [(2, 7)] with dt := 4 }).map fun t => (t.pc, t.readV 2, t.dt)) =
    some (0x200, 7, 3) := by decide

/-- KT-8 -/
theorem test_ldVxK_takes : ((run1 0xF20A (keys [9, 3] .reset)).map fun t => (t.pc, t.readV 2)) = some (0x202, 3) := by decide

/-- KT-10 -/
theorem test_ldVxDT : ((run1 0xF407 { State.reset with dt := 7 }).map fun t => (t.readV 4, t.dt)) = some (7, 6) := by decide

/-- KT-12, KT-14 -/
theorem test_ldDTVx : (run1 0xF115 (regs [(1, 0x0A)])).map (·.dt) = some 9 ∧
    (run1 0xF115 { State.reset with dt := 5 }).map (·.dt) = some 0 := by decide

/-- KT-15, KT-16 -/
theorem test_ldSTVx : (run1 0xF118 (regs [(1, 0x0A)])).map (·.st) = some 9 ∧
    (run1 0xF118 (regs [(1, 0x01)])).map (·.st) = some 0 := by decide

/-! ### Load and construction (LD-) -/

/-- LD-1 -/
theorem test_construct : (List.range 5).map (fun j => (State.construct defaultFont).mem.read (0x050 + j)) =
    [0xF0, 0x90, 0x90, 0x90, 0xF0] := by decide

/-- LD-4 -/
theorem test_load : (match (withPc 0x400 (regs [(3, 7)])).load [0x60, 0x0A] with
    | .ok t => some (t.mem.read 0x200, t.mem.read 0x201, t.readV 3, t.pc)
    | .error _ => none) = some (0x60, 0x0A, 7, 0x400) := by decide

/-! ### Witnesses: encoding and decoding -/

theorem witness_DecodeOfEncode : (Fetched.noOp 0x5121).wellFormed = true ∧
    (Fetched.instr (.drw 1 2 5)).wellFormed = true := by decide

theorem witness_DecodeFollowsOpcodeMap : (0x8124 : Word) &&& (Instr.addReg 1 2).row.mask = (Instr.addReg 1 2).row.bits ∧
    (0x8124 : Word) &&& (Instr.addReg 3 4).row.mask = (Instr.addReg 3 4).row.bits := by decide

/-! ### Witnesses: the step -/

theorem witness_StepRunsTheDecodedInstruction : ∃ (s : State) (i : Instr), s.pc.toNat + 1 < 4096 ∧
    decodeBytes [s.mem.read s.pc.toNat, s.mem.read (s.pc.toNat + 1)] = .ok (.instr i, []) :=
  ⟨State.reset.withFetchWord 16 0x600A, .ldImm 0 0x0A, by decide, rfl⟩

/-- The last address an instruction can be fetched from. -/
theorem witness_StepRuns_last : ∃ (s : State) (i : Instr), s.pc.toNat = 0xFFE ∧ s.pc.toNat + 1 < 4096 ∧
    decodeBytes [s.mem.read s.pc.toNat, s.mem.read (s.pc.toNat + 1)] = .ok (.instr i, []) :=
  ⟨(withPc 0xFFE .reset).withFetchWord 16 0x00E0, .cls, by decide, by decide, rfl⟩

theorem witness_FetchFaultsPastTheEnd : 4096 ≤ (withPc 0x1000 .reset).pc.toNat ∧ (withPc 0xFFF .reset).pc.toNat = 4095 ∧
    (withPc 0xFFE .reset).pc.toNat + 1 < 4096 := by decide

theorem witness_NoOpStep : (withPc 0xFFE .reset).pc.toNat + 1 < 4096 ∧
    decode (withPc 0xFFE .reset).wordAtPc = .noOp 0 := by decide

/-- A step that ends, one that faults, and the clauses of the three timer instructions. -/
theorem witness_EveryOkStepTicks : (∃ t, step State.reset = .next t) ∧
    (∃ f, step (withPc 0x1000 { State.reset with dt := 5 }) = .fault f) ∧
    (∃ t, step (State.reset.withFetchWord 16 0xF407) = .next t ∧
      decode (State.reset.withFetchWord 16 0xF407).wordAtPc = .instr (.ldVxDT 4)) ∧
    (∃ t, step (State.reset.withFetchWord 16 0xF115) = .next t ∧
      decode (State.reset.withFetchWord 16 0xF115).wordAtPc = .instr (.ldDTVx 1)) ∧
    (∃ t, step (State.reset.withFetchWord 16 0xF118) = .next t ∧
      decode (State.reset.withFetchWord 16 0xF118).wordAtPc = .instr (.ldSTVx 1)) :=
  ⟨⟨_, rfl⟩, ⟨_, rfl⟩, ⟨_, rfl, rfl⟩, ⟨_, rfl, rfl⟩, ⟨_, rfl, rfl⟩⟩

theorem witness_PcAfterEveryOkStep : ∃ t, step ((regs [(0, 0xFF)]).withFetchWord 16 0xBFFF) = .next t := ⟨_, rfl⟩

theorem witness_StepAnswersOkOrFault : (State.reset.pc.toNat + 1 < 4096 ∧ ∃ w, decode State.reset.wordAtPc = .noOp w) ∧
    ∃ x, decode (State.reset.withFetchWord 16 0xF20A).wordAtPc = .instr (.ldVxK x) :=
  ⟨⟨by decide, _, rfl⟩, _, rfl⟩

/-! ### Witnesses: faults -/

/-- No fault, and each kind of fault at the end of its range. -/
theorem witness_StepFaultsExactly : faultCondition State.reset = none ∧
    faultCondition (withPc 0xFFF .reset) = some (.outOfBoundsAccess .fetch 0x1000) ∧
    faultCondition (withPc 0x10FE .reset) = some (.outOfBoundsAccess .fetch 0x10FE) ∧
    faultCondition ({ State.reset with sp := 16 }.withFetchWord 16 0x2400) = some (.stackOverflow 0x200) ∧
    faultCondition (State.reset.withFetchWord 16 0x00EE) = some (.stackUnderflow 0x200) ∧
    faultCondition ((withI 0xFFD .reset).withFetchWord 16 0xF133) = none ∧
    faultCondition ((withI 0xFFE .reset).withFetchWord 16 0xF133) = some (.outOfBoundsAccess .index 0x1000) ∧
    faultCondition ((withI 0xFF1 .reset).withFetchWord 16 0xFF65) = some (.outOfBoundsAccess .index 0x1000) ∧
    faultCondition ((withI 0xFFE .reset).withFetchWord 16 0xD012) = none ∧
    faultCondition ((withI 0xFFE .reset).withFetchWord 16 0xD013) = some (.outOfBoundsAccess .sprite 0x1000) ∧
    faultCondition ((withI 0xFFFF .reset).withFetchWord 16 0xD010) = none ∧
    faultCondition ((regs [(0, 15)]).withFetchWord 16 0xE09E) = none ∧
    faultCondition ((regs [(0, 16)]).withFetchWord 16 0xE0A1) = some (.outOfBoundsAccess .key 16) := by decide

theorem witness_FaultedMachine : ∃ f, step (State.reset.withFetchWord 16 0x00EE) = .fault f := ⟨_, rfl⟩

/-! ### Witnesses: the invariant, and who may write what -/

theorem reset_inv : State.reset.Inv := ⟨rfl, by decide, by decide⟩

theorem witness_StepKeepsInvariant : State.reset.Inv ∧ ∃ t, step State.reset = .next t := ⟨reset_inv, _, rfl⟩

theorem witness_ReachableMeetsInvariant : Reachable defaultFont (serve defaultFont .step (State.construct defaultFont)).2 :=
  .call _ _ .construct

theorem witness_CanonicalMemoryIsUnique : ∃ m n : Memory, m.wf = true ∧ n.wf = true ∧ ∀ a, m.read a = n.read a :=
  ⟨[(0x300, 5)], Memory.write (Memory.write (Memory.write [] 0x301 7) 0x300 5) 0x301 0, by decide, by decide, fun _ => rfl⟩

theorem witness_RegistersChangeOnlyAsListed : ∃ t, exec (.addReg 1 2) State.reset = .next t := ⟨_, rfl⟩

theorem witness_PartsChangeOnlyAsListed : ∃ t, exec (.ldMemVx 2) (withI 0xFFD .reset) = .next t := ⟨_, rfl⟩

theorem witness_StepStoresOnlyFromIndex : (∃ t, step ((withI 0x300 .reset).withFetchWord 16 0xF133) = .next t) ∧
    ((withI 0x300 .reset).withFetchWord 16 0xF133).mem.wf = true := ⟨⟨_, rfl⟩, by decide⟩

/-- An instruction that reads neither the keypad nor the draw and ends, and one that faults. -/
theorem witness_KeypadReachesOnlyItsReaders : (∀ x, Instr.cls ≠ .skp x ∧ Instr.cls ≠ .sknp x ∧ Instr.cls ≠ .ldVxK x) ∧
    (∃ t, exec .cls State.reset = .next t) ∧
    (∀ x, Instr.ret ≠ .skp x ∧ Instr.ret ≠ .sknp x ∧ Instr.ret ≠ .ldVxK x) ∧
    (∃ f, exec .ret State.reset = .fault f) :=
  ⟨fun _ => by simp, ⟨_, rfl⟩, fun _ => by simp, ⟨_, rfl⟩⟩

theorem witness_DrawReachesOnlyRnd : (∃ t, exec (.rnd 1 0xFF) State.reset = .next t) ∧
    (∀ x kk, Instr.cls ≠ .rnd x kk) ∧ (∃ t, exec .cls State.reset = .next t) ∧
    (∀ x kk, Instr.ret ≠ .rnd x kk) ∧ (∃ f, exec .ret State.reset = .fault f) :=
  ⟨⟨_, rfl⟩, fun _ _ => by simp, ⟨_, rfl⟩, fun _ _ => by simp, ⟨_, rfl⟩⟩

theorem witness_SoundTimerIsNeverRead : (∃ t, step State.reset = .next t) ∧ ∃ f, step (withPc 0xFFF .reset) = .fault f :=
  ⟨⟨_, rfl⟩, ⟨_, rfl⟩⟩

/-- Two stacks that differ at the first slot above a depth of 1, and a call on the first of them. -/
theorem witness_StaleStackSlots : ∃ (s : State) (slots : Vector Word 16) (t : State),
    (∀ k : Fin 16, k.val < s.sp.val → slots[k] = s.stack[k]) ∧ slots[1] ≠ s.stack[1] ∧ s.sp.val = 1 ∧ step s = .next t :=
  ⟨{ State.reset with sp := 1 }.withFetchWord 16 0x2400, State.reset.stack.set 1 7, _, by decide, by decide, rfl, rfl⟩

theorem witness_StaleStackSlots_fault : ∃ (s : State) (slots : Vector Word 16) (f : Fault),
    (∀ k : Fin 16, k.val < s.sp.val → slots[k] = s.stack[k]) ∧ slots[0] ≠ s.stack[0] ∧ step s = .fault f :=
  ⟨State.reset.withFetchWord 16 0x00EE, State.reset.stack.set 0 7, _, by decide, by decide, rfl⟩

/-! ### Witnesses: control flow -/

theorem witness_CallPushesReturnAddress : ({ State.reset with sp := 15 } : State).sp.val < 16 ∧
    ({ State.reset with sp := 16 } : State).sp.val = 16 := by decide

theorem witness_ReturnPopsIntoPc : 0 < ({ State.reset with sp := 1 } : State).sp.val ∧
    0 < ({ State.reset with sp := 16 } : State).sp.val ∧ State.reset.sp.val = 0 := by decide

theorem witness_ReturnUndoesCall : ∃ t u : State, exec (.call 0x400) { State.reset with sp := 15 } = .next t ∧
    u.stack = t.stack ∧ u.sp = t.sp := ⟨_, _, rfl, rfl, rfl⟩

theorem witness_SkipsOnRegisters : ∃ x y : Nibble, x = y := ⟨15, 15, rfl⟩

/-! ### Witnesses: the ALU -/

/-- The clauses on a destination other than VF, for AddSetsCarry, SubtractSetsNotBorrow and ShiftsSetShiftOut; the other
value of x is 15. -/
theorem witness_destination_not_vF : ∃ x : Nibble, x ≠ 15 := ⟨14, by decide⟩

theorem witness_RandomByteIsMasked : ∃ kk : Byte, kk = 0 := ⟨0x00, rfl⟩

/-! ### Witnesses: index register and memory -/

theorem witness_BcdStoresDigits : (withI 0xFFD .reset).mem.wf = true ∧ (withI 0xFFD .reset).i.toNat + 2 < 4096 ∧
    (withI 0xFFE .reset).mem.wf = true ∧ 4096 ≤ (withI 0xFFE .reset).i.toNat + 2 := by decide

theorem witness_BlockStoreWritesRegisters : (withI 0xFF0 .reset).mem.wf = true ∧
    (withI 0xFF0 .reset).i.toNat + (15 : Nibble).toNat < 4096 ∧ (withI 0xFF1 .reset).mem.wf = true ∧
    4096 ≤ (withI 0xFF1 .reset).i.toNat + (15 : Nibble).toNat := by decide

/-- Also the register at the end of the block, and the first above it. -/
theorem witness_BlockLoadReadsRegisters : (withI 0xFF0 .reset).i.toNat + (15 : Nibble).toNat < 4096 ∧
    4096 ≤ (withI 0xFF1 .reset).i.toNat + (15 : Nibble).toNat ∧
    ∃ x r q : Nibble, r.toNat ≤ x.toNat ∧ x.toNat < q.toNat ∧ r = x ∧ q = x + 1 :=
  ⟨by decide, by decide, 14, 14, 15, by decide, by decide, rfl, rfl⟩

theorem witness_BlockLoadUndoesBlockStore : ∃ s t u : State, s.mem.wf = true ∧ exec (.ldMemVx 15) s = .next t ∧
    u.mem = t.mem ∧ u.i = s.i := ⟨withI 0xFF0 .reset, _, _, by decide, rfl, rfl, rfl⟩

theorem witness_FetchSeesStores_block : ∃ (x r : Nibble) (s t u : State), s.mem.wf = true ∧ exec (.ldMemVx x) s = .next t ∧
    u.mem = t.mem ∧ r.toNat < x.toNat ∧ u.pc.toNat = s.i.toNat + r.toNat :=
  ⟨15, 14, withI 0xFF0 .reset, _, { (withPc 0xFFE .reset) with mem := _ }, by decide, rfl, rfl, by decide, by decide⟩

/-- The three digits at the top of memory, fetched from the first and from the second. -/
theorem witness_FetchSeesStores_digits : ∃ (x : Nibble) (s t u u' : State), s.mem.wf = true ∧ exec (.ldB x) s = .next t ∧
    u.mem = t.mem ∧ u.pc.toNat = s.i.toNat ∧ u'.mem = t.mem ∧ u'.pc.toNat = s.i.toNat + 1 :=
  ⟨1, withI 0xFFD (regs [(1, 0xFF)]), _, { withPc 0xFFD .reset with mem := _ }, { withPc 0xFFE .reset with mem := _ },
    by decide, rfl, rfl, by decide, rfl, by decide⟩

theorem witness_FetchSeesStores_load : ∃ (image : List Byte) (j : Nat) (s t u : State), s.mem.wf = true ∧
    s.load image = .ok t ∧ u.mem = t.mem ∧ j + 1 < image.length ∧ u.pc.toNat = 0x200 + j :=
  ⟨[0x60, 0x0A], 0, .reset, _, { State.reset with mem := _ }, by decide, rfl, rfl, by decide, by decide⟩

/-! ### Witnesses: the framebuffer -/

/-- No row at all with I past the memory, two rows up to the last byte, and the first sprite that is too long. -/
theorem witness_DrawTogglesExactlyTheSprite :
    ((0 : Nibble) = 0 ∨ (withI 0xFFFF .reset).i.toNat + (0 : Nibble).toNat - 1 < 4096) ∧
    ((2 : Nibble) = 0 ∨ (withI 0xFFE .reset).i.toNat + (2 : Nibble).toNat - 1 < 4096) ∧
    (3 : Nibble) ≠ 0 ∧ 4096 ≤ (withI 0xFFE .reset).i.toNat + (3 : Nibble).toNat - 1 := by decide

/-- L1-4: glyph 0 drawn twice at the origin of a dark framebuffer. -/
theorem witness_DrawingTwiceRestores : ∃ (s t u w : State), exec (.drw 0 1 5) s = .next t ∧ u.fb = t.fb ∧ u.i = s.i ∧
    (∀ r < (5 : Nibble).toNat, u.mem.read (s.i.toNat + r) = s.mem.read (s.i.toNat + r)) ∧
    u.readV 0 = s.readV 0 ∧ u.readV 1 = s.readV 1 ∧ exec (.drw 0 1 5) u = .next w ∧
    (∀ px py, spriteBit s 0 1 5 px py = true → s.cell px py = false) ∧
    (∃ px py, spriteBit s 0 1 5 px py = true) ∧ ∃ px py, spriteBit s 0 1 5 px py = false :=
  ⟨withI 0x050 .reset, _, _, _, rfl, rfl, rfl, fun _ _ => rfl, rfl, rfl, rfl,
    fun px py _ => by simp [State.cell, withI, State.reset],
    ⟨0, 0, by decide⟩, ⟨63, 31, by decide⟩⟩

/-- With the two instructions that do it loaded, digit 15, and the state in which the draw starts. -/
theorem witness_DigitIsDrawnFromTheFont : ∃ (s t v : State) (d : Nat), d < 16 ∧
    (∀ k : Fin 80, s.mem.read (0x050 + k.val) = defaultFont[k]) ∧ (s.readV 0).toNat = d ∧
    (∀ px py, s.cell px py = false) ∧ exec (.ldF 0) s = .next t ∧ v.mem = t.mem ∧ v.v = t.v ∧ v.i = t.i ∧ v.fb = t.fb ∧
    v.pc ≠ t.pc :=
  ⟨withMem 0x200 [0xF0, 0x29, 0xD0, 0x15] (withPc 0x202 (regs [(0, 15)])), _,
    withMem 0x200 [0xF0, 0x29, 0xD0, 0x15] (withPc 0x204 (withI 0x09B (regs [(0, 15)]))), 15, by decide, by decide,
    by decide, fun px py => by simp [State.cell, withMem, withPc, regs, State.setMem, State.writeV, State.reset],
    rfl, rfl, rfl, by decide, rfl, by decide⟩

/-! ### Witnesses: keypad and timers -/

theorem witness_KeySkipsTestOneKey : ((regs [(0, 15)]).readV 0).toNat < 16 ∧ 16 ≤ ((regs [(0, 16)]).readV 0).toNat := by
  decide

theorem witness_KeyWaitTakesLowestKey : (∀ k : Fin 16, State.reset.key[k] = false) ∧
    (keys [3, 9] .reset).key[(3 : Fin 16)] = true ∧
    (∀ j : Fin 16, j < 3 → (keys [3, 9] .reset).key[j] = false) ∧
    (keys [15] .reset).key[(15 : Fin 16)] = true ∧
    ∀ j : Fin 16, j < 15 → (keys [15] .reset).key[j] = false := by decide

theorem witness_KeyWaitRepeats : ∃ (x : Nibble) (s : State), s.pc.toNat + 1 < 4096 ∧
    decode s.wordAtPc = .instr (.ldVxK x) ∧ ∀ k : Fin 16, s.key[k] = false :=
  ⟨2, State.reset.withFetchWord 16 0xF20A, by decide, by decide, by decide⟩

/-- The two instructions of P4 at 0x208 and 0x20A. -/
theorem witness_DelayReadBack : ∃ s t u : State, step s = .next t ∧ step t = .next u ∧
    decode s.wordAtPc = .instr (.ldDTVx 3) ∧ decode t.wordAtPc = .instr (.ldVxDT 4) :=
  ⟨withMem 0x200 [0xF3, 0x15, 0xF4, 0x07] (regs [(3, 5)]), _, _, rfl, rfl, rfl, rfl⟩

/-! ### Witnesses: the host -/

theorem witness_LoadCopiesOrRejects : State.reset.mem.wf = true ∧ (List.replicate 3584 (0xAA : Byte)).length ≤ 3584 ∧
    3584 < (List.replicate 3585 (0xAA : Byte)).length :=
  ⟨rfl, by rw [List.length_replicate], by rw [List.length_replicate]; decide⟩

/-- The last pc that can be fetched from, and the first that cannot. -/
theorem witness_PlacedWordIsFetched : (withPc 0xFFE .reset).mem.wf = true ∧
    (withPc 0xFFE .reset).pc.toNat + 1 < 4096 ∧ (withPc 0xFFF .reset).mem.wf = true ∧
    4096 ≤ (withPc 0xFFF .reset).pc.toNat + 1 := by decide

/-- The word the host places is the one the next step runs, also where pc must first be moved. -/
theorem test_withFetchWord : pc1 0x1ABC (withPc 0xFFF .reset) = some 0xABC ∧
    (State.reset.withFetchWord 16 0x600A).mem.read 0x200 = 0x60 := by decide

end Sys2Proof.Tests
end

section
/-! What construction leaves in each state element (R29): memory through the law of a byte sequence written to it, and
every other element as the reset state has it. -/

namespace Sys2Proof.Machine

open Sys2Proof

/-- Outside the font's 80 bytes nothing but 0 is there before any write (R29). -/
theorem resetByte_of_not_font {a : Nat} (h : ¬(0x050 ≤ a ∧ a < 0x0A0)) : resetByte a = 0 :=
  dif_neg h

/-- Memory after construction (R29, R36): the given font hides all of the default font, so no byte of that is left. -/
theorem State.construct_mem_read (font : Font) (a : Nat) :
    (State.construct font).mem.read a =
      if h : 0x050 ≤ a ∧ a < 0x0A0 then font[a - 0x050]'(by omega) else 0 := by
  have hlen : font.toList.length = 80 := Vector.length_toList
  have hread : (State.construct font).mem.read a =
      if 0x050 ≤ a ∧ a < 0x050 + font.toList.length then font.toList.getD (a - 0x050) 0 else resetByte a :=
    Memory.read_writeBytes (base := 0x050) Memory.wf_nil font.toList (by omega) a
  rw [hread, hlen]
  by_cases h : 0x050 ≤ a ∧ a < 0x0A0
  · have hidx : a - 0x050 < font.toList.length := by omega
    rw [if_pos h, dif_pos h, List.getD_eq_getElem _ _ hidx, Vector.getElem_toList]
  · rw [if_neg h, dif_neg h, resetByte_of_not_font h]

/-! ### The other elements: construction writes memory only -/

@[simp] theorem State.construct_v (font : Font) : (State.construct font).v = Vector.replicate 16 0 := rfl
@[simp] theorem State.construct_i (font : Font) : (State.construct font).i = 0 := rfl
@[simp] theorem State.construct_pc (font : Font) : (State.construct font).pc = 0x200 := rfl
@[simp] theorem State.construct_stack (font : Font) : (State.construct font).stack = Vector.replicate 16 0 := rfl
@[simp] theorem State.construct_sp (font : Font) : (State.construct font).sp = 0 := rfl
@[simp] theorem State.construct_dt (font : Font) : (State.construct font).dt = 0 := rfl
@[simp] theorem State.construct_st (font : Font) : (State.construct font).st = 0 := rfl
@[simp] theorem State.construct_key (font : Font) : (State.construct font).key = Vector.replicate 16 false := rfl
@[simp] theorem State.construct_fb (font : Font) :
    (State.construct font).fb = Vector.replicate 64 (Vector.replicate 32 false) := rfl

theorem State.readV_construct (font : Font) (r : Nibble) : (State.construct font).readV r = 0 := by
  rw [State.readV]
  simp only [State.construct_v, Vector.getElem_replicate]

theorem State.stack_construct (font : Font) (k : Fin 16) : (State.construct font).stack[k] = 0 := by
  simp only [State.construct_stack, Fin.getElem_fin, Vector.getElem_replicate]

theorem State.key_construct (font : Font) (k : Fin 16) : (State.construct font).key[k] = false := by
  simp only [State.construct_key, Fin.getElem_fin, Vector.getElem_replicate]

theorem State.cell_construct (font : Font) (x : Fin 64) (y : Fin 32) : (State.construct font).cell x y = false := by
  rw [State.cell]
  simp only [State.construct_fb, Fin.getElem_fin, Vector.getElem_replicate]

/-- Settles O54: memory by `State.construct_mem_read`, and every other element as the reset state has it. -/
theorem constructionValues : Obligations.ConstructionValues := by
  intro font
  exact ⟨State.construct_mem_read font, State.readV_construct font, State.construct_i font, State.construct_pc font,
    State.stack_construct font, State.construct_sp font, State.construct_dt font, State.construct_st font,
    State.key_construct font, State.cell_construct font⟩

end Sys2Proof.Machine
end

section
/-! What a step answers (R71): a next state or a fault, with the no-op (R69) and the key wait Fx0A (R111) as two whose
execute stage never faults, so that only the fetch can stop them. -/

namespace Sys2Proof.Machine

open Sys2Proof

variable {s : State}

/-- Where the fetch is possible, a step is `Ok` as soon as the execute stage is (R70, R73). -/
theorem step_of_execFetched_next {u : State} (hpc : s.pc.toNat + 1 < 4096)
    (hexec : execFetched (decode s.wordAtPc) s.advance = .next u) : step s = .next u.tick :=
  step_eq_next.mpr ⟨hpc, u, hexec, rfl⟩

/-! ### The no-op -/

/-- The execute stage of a no-op writes nothing, so its step is the advance of pc and the tick (R69). -/
theorem step_of_noOp {w : Word} (hpc : s.pc.toNat + 1 < 4096) (hw : decode s.wordAtPc = .noOp w) :
    step s = .next s.advance.tick :=
  step_of_execFetched_next hpc (by rw [hw]; rfl)

/-- The advance and the tick write pc and the two timers only (R66, R70). -/
theorem changesOnly_advance_tick (s : State) : ChangesOnly [.pc, .delay, .sound] s s.advance.tick := by
  intro p hp
  cases p with
  | memory => exact fun _ => rfl
  | regs => exact fun _ => rfl
  | stack => exact ⟨rfl, rfl⟩
  | index | keypad | plane | draws => rfl
  | pc | delay | sound => simp at hp

/-- Settles O8: the next state is `s.advance.tick`, whose parts the laws of `advance` and `tick` give. -/
theorem noOpStepAdvancesAndTicks : Obligations.NoOpStepAdvancesAndTicks := by
  intro s w hpc hw
  exact ⟨s.advance.tick, step_of_noOp hpc hw, State.advance_pc_toNat hpc, tickTimer_toNat s.dt, tickTimer_toNat s.st,
    changesOnly_advance_tick s⟩

/-! ### Every step, and the key wait -/

/-- Fx0A ends in a next state with a key pressed and without one (R111). -/
theorem exists_execLdVxK_eq_next (x : Nibble) (s : State) : ∃ t, execLdVxK x s = .next t := by
  rw [execLdVxK]
  cases lowestPressed s.key with
  | some k => exact ⟨_, rfl⟩
  | none => exact ⟨_, rfl⟩

theorem State.stepOk_or_fault (s : State) : s.StepOk ∨ ∃ f, step s = .fault f := by
  cases hstep : step s with
  | next t => exact .inl ⟨t, hstep⟩
  | fault f => exact .inr ⟨f, rfl⟩
  | refused r => exact absurd hstep (step_ne_refused s r)

theorem State.stepOk_of_ldVxK {x : Nibble} (hpc : s.pc.toNat + 1 < 4096)
    (hi : decode s.wordAtPc = .instr (.ldVxK x)) : s.StepOk := by
  obtain ⟨u, hu⟩ := exists_execLdVxK_eq_next x s.advance
  exact ⟨u.tick, step_of_execFetched_next hpc (by rw [hi]; exact hu)⟩

/-- Settles O11: no step is refused, and the execute stages of the no-op and of Fx0A have no fault to raise. -/
theorem stepAnswersOkOrFault : Obligations.StepAnswersOkOrFault := by
  intro s
  exact ⟨s.stepOk_or_fault, fun hpc ⟨_, hw⟩ => ⟨_, step_of_noOp hpc hw⟩, fun hpc ⟨_, hi⟩ => State.stepOk_of_ldVxK hpc hi⟩

end Sys2Proof.Machine
end

section
/-! Decoding undoes encoding (R52, R55 to R58): each layout gives its fields back, and with them the decoder finds the
instruction. -/

namespace Sys2Proof

/-! ### The fields of the layouts (R52) -/

@[simp] theorem groupOf_encodeNNN (g : Nibble) (nnn : Imm12) : groupOf (encodeNNN g nnn) = g := by
  apply BitVec.eq_of_toNat_eq
  simp only [groupOf_toNat, encodeNNN_toNat]
  omega

@[simp] theorem fieldNNN_encodeNNN (g : Nibble) (nnn : Imm12) : fieldNNN (encodeNNN g nnn) = nnn := by
  apply BitVec.eq_of_toNat_eq
  simp only [fieldNNN_toNat, encodeNNN_toNat]
  omega

@[simp] theorem groupOf_encodeXKK (g x : Nibble) (kk : Byte) : groupOf (encodeXKK g x kk) = g := by
  apply BitVec.eq_of_toNat_eq
  simp only [groupOf_toNat, encodeXKK_toNat]
  omega

@[simp] theorem fieldX_encodeXKK (g x : Nibble) (kk : Byte) : fieldX (encodeXKK g x kk) = x := by
  apply BitVec.eq_of_toNat_eq
  simp only [fieldX_toNat, encodeXKK_toNat]
  omega

@[simp] theorem fieldKK_encodeXKK (g x : Nibble) (kk : Byte) : fieldKK (encodeXKK g x kk) = kk := by
  apply BitVec.eq_of_toNat_eq
  simp only [fieldKK_toNat, encodeXKK_toNat]
  omega

@[simp] theorem groupOf_encodeXYN (g x y n : Nibble) : groupOf (encodeXYN g x y n) = g := by
  apply BitVec.eq_of_toNat_eq
  simp only [groupOf_toNat, encodeXYN_toNat]
  omega

@[simp] theorem fieldX_encodeXYN (g x y n : Nibble) : fieldX (encodeXYN g x y n) = x := by
  apply BitVec.eq_of_toNat_eq
  simp only [fieldX_toNat, encodeXYN_toNat]
  omega

@[simp] theorem fieldY_encodeXYN (g x y n : Nibble) : fieldY (encodeXYN g x y n) = y := by
  apply BitVec.eq_of_toNat_eq
  simp only [fieldY_toNat, encodeXYN_toNat]
  omega

@[simp] theorem fieldN_encodeXYN (g x y n : Nibble) : fieldN (encodeXYN g x y n) = n := by
  apply BitVec.eq_of_toNat_eq
  simp only [fieldN_toNat, encodeXYN_toNat]
  omega

/-! ### The instructions -/

/-- The decoder answers every instruction's word with that instruction (R62): the group selects the branch, the groups
8, E and F their row by the constant field, and the operands come back by the laws above. -/
theorem decode_encode (i : Instr) : decode (encode i) = .instr i := by
  cases i with
  | cls | ret => rfl
  | ldReg | orReg | andReg | xorReg | addReg | sub | shr | subn | shl => simp [encode, decode, decodeGroup8]
  | skp | sknp => simp [encode, decode, decodeGroupE]
  | ldVxDT | ldVxK | ldDTVx | ldSTVx | addI | ldF | ldB | ldMemVx | ldVxMem => simp [encode, decode, decodeGroupF]
  | _ => simp [encode, decode]

end Sys2Proof

namespace Sys2Proof.Machine

open Sys2Proof

/-- The match and mask of a row and the decoding of its words (R60), from the law that the word matches its row. -/
theorem encodedAs_row {i : Instr} (hrow : Laws.RowMatch.Statement i) : EncodedAs i i.row.bits i.row.mask :=
  ⟨hrow, decode_encode i⟩

end Sys2Proof.Machine
end

section
/-! Jumps and skips (R76, R78 to R81): they complete on every state and write pc only. A skip compares two bytes. -/

namespace Sys2Proof.Machine

open Sys2Proof

theorem changesOnly_setPc (s : State) (w : Word) : ChangesOnly [.pc] s (s.setPc w) := by
  intro p hp
  cases p with
  | memory => exact fun _ => rfl
  | regs => exact fun _ => rfl
  | stack => exact ⟨rfl, rfl⟩
  | index | delay | sound | keypad | plane | draws => rfl
  | pc => simp at hp

/-- Settles O25: the next state is `s.setPc` of the target, whose zero extension is exact. -/
theorem jumpSetsPc : Obligations.JumpSetsPc := by
  intro nnn s
  exact ⟨encodedAs_row (Laws.RowMatch.jp nnn), s.setPc (addrOperand nnn), rfl, addrOperand_toNat nnn,
    changesOnly_setPc s _⟩

/-! ### Skips -/

theorem changesOnly_skipIf (s : State) (c : Bool) : ChangesOnly [.pc] s (s.skipIf c) := by
  rw [State.skipIf_eq]
  exact changesOnly_setPc s _

/-- A skip on equal bytes (R78, R80). -/
theorem State.skipIf_eq_pc (s : State) (a b : Byte) :
    (s.skipIf (a = b)).pc = if a.toNat = b.toNat then s.pc + 2 else s.pc := by
  simp only [State.skipIf_eq, decide_eq_true_eq, BitVec.toNat_inj]

/-- A skip on unequal bytes (R79, R81). -/
theorem State.skipIf_ne_pc (s : State) (a b : Byte) :
    (s.skipIf (a ≠ b)).pc = if a.toNat = b.toNat then s.pc else s.pc + 2 := by
  simp only [State.skipIf_eq, decide_eq_true_eq, BitVec.toNat_inj, ite_not, ne_eq]

/-- Settles O30: each next state is a conditional skip on `V[x]` and `kk`. -/
theorem skipsOnImmediate : Obligations.SkipsOnImmediate := by
  intro x kk s
  refine ⟨encodedAs_row (Laws.RowMatch.seImm x kk), encodedAs_row (Laws.RowMatch.sneImm x kk), ?_, ?_⟩
  · exact ⟨_, rfl, s.skipIf_eq_pc (s.readV x) kk, changesOnly_skipIf s _⟩
  · exact ⟨_, rfl, s.skipIf_ne_pc (s.readV x) kk, changesOnly_skipIf s _⟩

/-- Settles O31: each next state is a conditional skip on `V[x]` and `V[y]`, which are equal where `x = y`. -/
theorem skipsOnRegisters : Obligations.SkipsOnRegisters := by
  intro x y s
  have heq := s.skipIf_eq_pc (s.readV x) (s.readV y)
  have hne := s.skipIf_ne_pc (s.readV x) (s.readV y)
  refine ⟨encodedAs_row (Laws.RowMatch.seReg x y), encodedAs_row (Laws.RowMatch.sneReg x y), ?_, ?_⟩
  · exact ⟨_, rfl, heq, fun hxy => heq.trans (if_pos (by rw [hxy])), changesOnly_skipIf s _⟩
  · exact ⟨_, rfl, hne, fun hxy => hne.trans (if_pos (by rw [hxy])), changesOnly_skipIf s _⟩

end Sys2Proof.Machine
end

section
/-! The ALU (R83 to R94): every instruction of it completes, and ends in a write of one register (`writeV`) or of a
register and then VF (`writeResultFlag`). What those two read back and leave alone is said once; what is left of each
instruction is the value of its result and of its flag. -/

namespace Sys2Proof.Machine

open Sys2Proof

/-! ### The two writes and their frames -/

theorem changesOnly_regs (s : State) (v : Vector Byte 16) : ChangesOnly [.regs] s { s with v := v } := by
  intro p hp
  cases p with
  | memory => exact fun _ => rfl
  | stack => exact ⟨rfl, rfl⟩
  | index | pc | delay | sound | keypad | plane | draws => rfl
  | regs => simp at hp

theorem changesOnly_writeV (s : State) (x : Nibble) (b : Byte) : ChangesOnly [.regs] s (s.writeV x b) :=
  changesOnly_regs s _

theorem regsSameBut_writeV (s : State) (x : Nibble) (b : Byte) : RegsSameBut [x] s (s.writeV x b) := by
  intro r hr
  exact s.readV_writeV_of_ne x r b (List.ne_of_not_mem_cons hr)

theorem changesOnly_writeResultFlag (s : State) (x : Nibble) (result flag : Byte) :
    ChangesOnly [.regs] s (s.writeResultFlag x result flag) :=
  changesOnly_regs s _

theorem regsSameBut_writeResultFlag (s : State) (x : Nibble) (result flag : Byte) :
    RegsSameBut [x, 15] s (s.writeResultFlag x result flag) := by
  intro r hr
  obtain ⟨hx, hvF⟩ : r ≠ x ∧ r ≠ vF := by simpa [vF] using hr
  rw [State.writeResultFlag, State.readV_writeV_of_ne _ _ _ _ hvF, State.readV_writeV_of_ne _ _ _ _ hx]

/-- The flag is the last write (R15, R83(c)), so VF holds it whatever the destination. -/
theorem State.readV_writeResultFlag_vF (s : State) (x : Nibble) (result flag : Byte) :
    (s.writeResultFlag x result flag).readV 15 = flag :=
  State.readV_writeV_same (s.writeV x result) vF flag

/-- The flag replaces the result only where VF is the destination (R143). -/
theorem State.readV_writeResultFlag_of_ne (s : State) {x : Nibble} (hx : x ≠ 15) (result flag : Byte) :
    (s.writeResultFlag x result flag).readV x = result := by
  rw [State.writeResultFlag, State.readV_writeV_of_ne _ vF x flag hx, State.readV_writeV_same]

/-! ### Flags and results as numbers -/

theorem carryFlag_eq (a b : Byte) : carryFlag a b = if 255 < a.toNat + b.toNat then 1 else 0 := by
  simp only [carryFlag, flagByte, decide_eq_true_eq, gt_iff_lt]

theorem notBorrowFlag_eq (a b : Byte) : notBorrowFlag a b = if b.toNat < a.toNat then 1 else 0 := by
  simp only [notBorrowFlag, flagByte, decide_eq_true_eq, gt_iff_lt]

/-- A bit of a byte as a flag is the binary digit of that place. -/
theorem flagByte_getLsbD_toNat (a : Byte) (j : Nat) : (flagByte (a.getLsbD j)).toNat = a.toNat / 2 ^ j % 2 := by
  rw [← BitVec.testBit_toNat, Nat.testBit_eq_decide_div_mod_eq, flagByte]
  rcases Nat.mod_two_eq_zero_or_one (a.toNat / 2 ^ j) with h | h <;> simp [h]

theorem shiftOutRight_toNat (a : Byte) : (shiftOutRight a).toNat = a.toNat % 2 := by
  rw [shiftOutRight, flagByte_getLsbD_toNat, pow_zero, Nat.div_one]

/-- A byte is below 256, so nothing lies above its bit 7. -/
theorem shiftOutLeft_toNat (a : Byte) : (shiftOutLeft a).toNat = a.toNat / 128 := by
  rw [shiftOutLeft, flagByte_getLsbD_toNat]
  omega

/-- The difference modulo 256, with 256 added first so that the subtraction of natural numbers is exact. -/
theorem toNat_sub_byte (a b : Byte) : (a - b).toNat = (a.toNat + 256 - b.toNat) % 256 := by
  rw [BitVec.toNat_sub]
  omega

theorem toNat_shiftRight_one_byte (a : Byte) : (a >>> 1).toNat = a.toNat / 2 := by
  rw [BitVec.toNat_ushiftRight, Nat.shiftRight_one]

theorem toNat_shiftLeft_one_byte (a : Byte) : (a <<< 1).toNat = a.toNat * 2 % 256 := by
  rw [BitVec.toNat_shiftLeft, Nat.shiftLeft_eq]

/-! ### Results without a flag -/

/-- Settles O32: each next state is `s.writeV` of the result, so VF is written only as the destination. -/
theorem immediateLoadAndAdd : Obligations.ImmediateLoadAndAdd := by
  intro x kk s
  refine ⟨encodedAs_row (Laws.RowMatch.ldImm x kk), encodedAs_row (Laws.RowMatch.addImm x kk), ?_, ?_⟩
  · exact ⟨_, rfl, s.readV_writeV_same x kk, regsSameBut_writeV s x _, changesOnly_writeV s x _⟩
  · have hsum : ((s.writeV x (s.readV x + kk)).readV x).toNat = ((s.readV x).toNat + kk.toNat) % 256 := by
      rw [State.readV_writeV_same, BitVec.toNat_add]
    exact ⟨_, rfl, hsum, regsSameBut_writeV s x _, changesOnly_writeV s x _⟩

/-- Settles O33: each next state is `s.writeV` of the result, whose bits are the library's for OR, AND and XOR. -/
theorem copyAndLogic : Obligations.CopyAndLogic := by
  intro x y s
  refine ⟨encodedAs_row (Laws.RowMatch.ldReg x y), encodedAs_row (Laws.RowMatch.orReg x y),
    encodedAs_row (Laws.RowMatch.andReg x y), encodedAs_row (Laws.RowMatch.xorReg x y), ?_, ?_, ?_, ?_⟩
  · exact ⟨_, rfl, s.readV_writeV_same x (s.readV y), regsSameBut_writeV s x _, changesOnly_writeV s x _⟩
  · exact ⟨_, rfl, fun j _ => by rw [State.readV_writeV_same, BitVec.getLsbD_or], regsSameBut_writeV s x _,
      changesOnly_writeV s x _⟩
  · exact ⟨_, rfl, fun j _ => by rw [State.readV_writeV_same, BitVec.getLsbD_and], regsSameBut_writeV s x _,
      changesOnly_writeV s x _⟩
  · exact ⟨_, rfl, fun j _ => by rw [State.readV_writeV_same, BitVec.getLsbD_xor], regsSameBut_writeV s x _,
      changesOnly_writeV s x _⟩

/-! ### Results with a flag -/

/-- Settles O34: the next state is `s.writeResultFlag` of the sum and the carry. -/
theorem addSetsCarry : Obligations.AddSetsCarry := by
  intro x y s
  refine ⟨encodedAs_row (Laws.RowMatch.addReg x y), _, rfl, ?_, fun hx => ?_, regsSameBut_writeResultFlag s x _ _,
    changesOnly_writeResultFlag s x _ _⟩
  · rw [State.readV_writeResultFlag_vF, carryFlag_eq]
  · rw [s.readV_writeResultFlag_of_ne hx, BitVec.toNat_add]

/-- What 8xy5 and 8xy7 have in common (R91, R93): they end in the difference of a minuend `a` and a subtrahend `b` and its
NOT-borrow. -/
theorem sub_setsNotBorrow {s : State} {x : Nibble} {a b : Byte} {r : Result}
    (hr : r = .next (s.writeResultFlag x (a - b) (notBorrowFlag a b))) :
    ∃ t, r = .next t ∧ t.readV 15 = (if b.toNat < a.toNat then 1 else 0) ∧
      (x ≠ 15 → (t.readV x).toNat = (a.toNat + 256 - b.toNat) % 256) ∧
      RegsSameBut [x, 15] s t ∧ ChangesOnly [.regs] s t := by
  refine ⟨_, hr, ?_, fun hx => ?_, regsSameBut_writeResultFlag s x _ _, changesOnly_writeResultFlag s x _ _⟩
  · rw [State.readV_writeResultFlag_vF, notBorrowFlag_eq]
  · rw [s.readV_writeResultFlag_of_ne hx, toNat_sub_byte]

/-- Settles O35: the two differ only in which operand is the minuend. -/
theorem subtractSetsNotBorrow : Obligations.SubtractSetsNotBorrow := by
  intro x y s
  exact ⟨encodedAs_row (Laws.RowMatch.sub x y), encodedAs_row (Laws.RowMatch.subn x y),
    sub_setsNotBorrow (a := s.readV x) (b := s.readV y) rfl, sub_setsNotBorrow (a := s.readV y) (b := s.readV x) rfl⟩

/-- Settles O36: each next state is `s.writeResultFlag` of the shifted byte and the bit shifted out, in neither of which
`y` occurs. -/
theorem shiftsSetShiftOut : Obligations.ShiftsSetShiftOut := by
  intro x y s
  refine ⟨encodedAs_row (Laws.RowMatch.shr x y), encodedAs_row (Laws.RowMatch.shl x y), ?_, ?_⟩
  · refine ⟨_, rfl, ?_, fun hx => ?_, regsSameBut_writeResultFlag s x _ _, changesOnly_writeResultFlag s x _ _,
      fun _ => rfl⟩
    · rw [State.readV_writeResultFlag_vF, shiftOutRight_toNat]
    · rw [s.readV_writeResultFlag_of_ne hx, toNat_shiftRight_one_byte]
  · refine ⟨_, rfl, ?_, fun hx => ?_, regsSameBut_writeResultFlag s x _ _, changesOnly_writeResultFlag s x _ _,
      fun _ => rfl⟩
    · rw [State.readV_writeResultFlag_vF, shiftOutLeft_toNat]
    · rw [s.readV_writeResultFlag_of_ne hx, toNat_shiftLeft_one_byte]

end Sys2Proof.Machine
end

section
/-! The index register (R96, R97): Annn and Fx1E complete on every state and write `I` only. -/

namespace Sys2Proof.Machine

open Sys2Proof

theorem changesOnly_setI (s : State) (w : Word) : ChangesOnly [.index] s (s.setI w) := by
  intro p hp
  cases p with
  | memory => exact fun _ => rfl
  | regs => exact fun _ => rfl
  | stack => exact ⟨rfl, rfl⟩
  | pc | delay | sound | keypad | plane | draws => rfl
  | index => simp at hp

/-- Settles O38: each next state is `s.setI`, of the zero-extended immediate or of the word sum, which wraps at 65536. -/
theorem indexSetAndAdd : Obligations.IndexSetAndAdd := by
  intro x nnn s
  refine ⟨encodedAs_row (Laws.RowMatch.ldI nnn), encodedAs_row (Laws.RowMatch.addI x), ?_, ?_⟩
  · exact ⟨_, rfl, addrOperand_toNat nnn, changesOnly_setI s _⟩
  · have hsum : (s.i + wordOfByte (s.readV x)).toNat = (s.i.toNat + (s.readV x).toNat) % 65536 := by
      rw [BitVec.toNat_add, wordOfByte_toNat]
    exact ⟨_, rfl, hsum, changesOnly_setI s _⟩

end Sys2Proof.Machine
end

section
/-! The framebuffer (R102): the plane that 00E0 leaves is dark in every cell, and a write of the plane changes nothing
else. -/

namespace Sys2Proof.Machine

open Sys2Proof

theorem changesOnly_setFB (s : State) (fb : Framebuffer) : ChangesOnly [.plane] s (s.setFB fb) := by
  intro p hp
  cases p with
  | memory => exact fun _ => rfl
  | regs => exact fun _ => rfl
  | stack => exact ⟨rfl, rfl⟩
  | index | pc | delay | sound | keypad | draws => rfl
  | plane => simp at hp

@[simp] theorem State.cell_setFB (s : State) (fb : Framebuffer) (x : Fin 64) (y : Fin 32) :
    (s.setFB fb).cell x y = fb[x][y] := rfl

theorem darkPlane_getElem (x : Fin 64) (y : Fin 32) : darkPlane[x][y] = false := by
  simp only [darkPlane, Fin.getElem_fin, Vector.getElem_replicate]

/-- Settles O45: the next state is `s.setFB` of the dark plane. -/
theorem clearDarkensEveryCell : Obligations.ClearDarkensEveryCell := by
  intro s
  exact ⟨encodedAs_row Laws.RowMatch.cls, s.setFB darkPlane, rfl,
    fun x y => (s.cell_setFB darkPlane x y).trans (darkPlane_getElem x y), changesOnly_setFB s darkPlane⟩

end Sys2Proof.Machine
end

section
/-! The key wait (R111): its next state, by the lowest pressed key or by there being none. -/

namespace Sys2Proof.Machine

open Sys2Proof

theorem exec_ldVxK_of_none {s : State} (x : Nibble) (hlow : lowestPressed s.key = none) :
    exec (.ldVxK x) s = .next (s.setPc (s.pc - 2)) := by
  rw [exec, execLdVxK, hlow, State.instrAddr]

theorem exec_ldVxK_of_some {s : State} {k : Fin 16} (x : Nibble) (hlow : lowestPressed s.key = some k) :
    exec (.ldVxK x) s = .next (s.writeV x (BitVec.ofNat 8 k.val)) := by
  rw [exec, execLdVxK, hlow]

/-- A key number is below 16, so it is exact as a byte. -/
theorem toNat_byte_of_key (k : Fin 16) : (BitVec.ofNat 8 k.val).toNat = k.val := by
  rw [BitVec.toNat_ofNat]
  omega

/-- Settles O50: the next state is `s.setPc` of the instruction's address or `s.writeV` of the lowest pressed key, and the
condition on the keypad that belongs to the other case is false. -/
theorem keyWaitTakesLowestKey : Obligations.KeyWaitTakesLowestKey := by
  intro x s
  refine ⟨encodedAs_row (Laws.RowMatch.ldVxK x), ?_⟩
  cases hlow : lowestPressed s.key with
  | none =>
    refine ⟨_, exec_ldVxK_of_none x hlow, fun _ => ⟨s.setPc_pc _, changesOnly_setPc s _⟩, fun k hk _ => ?_⟩
    exact absurd hk (by simp [lowestPressed_eq_none.mp hlow k])
  | some k =>
    refine ⟨_, exec_ldVxK_of_some x hlow, fun hall => ?_, fun j hj hbelow => ?_⟩
    · rw [lowestPressed_eq_none.mpr hall] at hlow
      cases hlow
    · obtain rfl : j = k := Option.some.inj ((lowestPressed_eq_some hj hbelow).symm.trans hlow)
      exact ⟨by rw [State.readV_writeV_same, toNat_byte_of_key], regsSameBut_writeV s x _, changesOnly_writeV s x _⟩

end Sys2Proof.Machine
end

section
/-! Encoding undoes decoding (R51 to R62). A word is rebuilt from its group and fields in each of the three layouts, so the
encoder gives back the word of whatever it decodes to; the mask of a row singles out the fixed fields of one layout, so a
word that matches a row is the encoding of that row's instruction with the word's own fields. -/

namespace Sys2Proof

/-! ### A word as its group and its fields (R52) -/

theorem encodeNNN_fields (w : Word) : encodeNNN (groupOf w) (fieldNNN w) = w := by
  apply BitVec.eq_of_toNat_eq
  simp only [encodeNNN_toNat, groupOf_toNat, fieldNNN_toNat]
  omega

theorem encodeXKK_fields (w : Word) : encodeXKK (groupOf w) (fieldX w) (fieldKK w) = w := by
  apply BitVec.eq_of_toNat_eq
  simp only [encodeXKK_toNat, groupOf_toNat, fieldX_toNat, fieldKK_toNat]
  omega

theorem encodeXYN_fields (w : Word) : encodeXYN (groupOf w) (fieldX w) (fieldY w) (fieldN w) = w := by
  apply BitVec.eq_of_toNat_eq
  simp only [encodeXYN_toNat, groupOf_toNat, fieldX_toNat, fieldY_toNat, fieldN_toNat]
  omega

variable {w : Word} {g n : Nibble} {kk : Byte}

theorem encodeNNN_of_group (hg : groupOf w = g) : encodeNNN g (fieldNNN w) = w := by
  rw [← hg, encodeNNN_fields]

theorem encodeXKK_of_group (hg : groupOf w = g) : encodeXKK g (fieldX w) (fieldKK w) = w := by
  rw [← hg, encodeXKK_fields]

theorem encodeXYN_of_group (hg : groupOf w = g) : encodeXYN g (fieldX w) (fieldY w) (fieldN w) = w := by
  rw [← hg, encodeXYN_fields]

theorem encodeXKK_of_group_kk (hg : groupOf w = g) (hkk : fieldKK w = kk) : encodeXKK g (fieldX w) kk = w := by
  rw [← hkk, encodeXKK_of_group hg]

theorem encodeXYN_of_group_n (hg : groupOf w = g) (hn : fieldN w = n) : encodeXYN g (fieldX w) (fieldY w) n = w := by
  rw [← hn, encodeXYN_of_group hg]

/-! ### The decoder keeps the word -/

theorem encode_decodeGroup0 (w : Word) : (decodeGroup0 w).encode = w := by
  unfold decodeGroup0
  split_ifs with hcls hret
  · exact hcls.symm
  · exact hret.symm
  · rfl

theorem encode_decodeGroup8 (hg : groupOf w = 8#4) : (decodeGroup8 w).encode = w := by
  unfold decodeGroup8
  split
  case h_10 => rfl
  all_goals
    next hn => exact encodeXYN_of_group_n hg (BitVec.eq_of_toNat_eq hn)

theorem encode_decodeGroupE (hg : groupOf w = 14#4) : (decodeGroupE w).encode = w := by
  unfold decodeGroupE
  split_ifs with hskp hsknp
  · exact encodeXKK_of_group_kk hg hskp
  · exact encodeXKK_of_group_kk hg hsknp
  · rfl

theorem encode_decodeGroupF (hg : groupOf w = 15#4) : (decodeGroupF w).encode = w := by
  simp only [decodeGroupF]
  split_ifs
  case neg => rfl
  all_goals
    next hkk => exact encodeXKK_of_group_kk hg hkk

/-- Decoding loses no bit of a word: an instruction encodes back to it, and a no-op keeps it (R62; log entry 7). -/
theorem encode_decode (w : Word) : (decode w).encode = w := by
  have hlt : (groupOf w).toNat < 16 := (groupOf w).isLt
  unfold decode
  split
  case h_1 => exact encode_decodeGroup0 w
  case h_2 hg | h_3 hg | h_11 hg | h_12 hg => exact encodeNNN_of_group (BitVec.eq_of_toNat_eq hg)
  case h_4 hg | h_5 hg | h_7 hg | h_8 hg | h_13 hg => exact encodeXKK_of_group (BitVec.eq_of_toNat_eq hg)
  case h_14 hg => exact encodeXYN_of_group (BitVec.eq_of_toNat_eq hg)
  case h_6 hg | h_10 hg =>
    split_ifs with hn
    · exact encodeXYN_of_group_n (BitVec.eq_of_toNat_eq hg) hn
    · rfl
  case h_9 hg => exact encode_decodeGroup8 (BitVec.eq_of_toNat_eq hg)
  case h_15 hg => exact encode_decodeGroupE (BitVec.eq_of_toNat_eq hg)
  case h_16 =>
    have hg : (groupOf w).toNat = 15 := by
      simp only [imp_false] at *
      omega
    exact encode_decodeGroupF (BitVec.eq_of_toNat_eq hg)

theorem encode_of_decode_eq_instr {i : Instr} (h : decode w = .instr i) : encode i = w := by
  have := encode_decode w
  rwa [h] at this

theorem decode_eq_noOp_self {w' : Word} (h : decode w = .noOp w') : decode w = .noOp w := by
  have := encode_decode w
  rw [h] at this
  rw [h, ← this]
  rfl

/-! ### The no-op space (R61) -/

/-- No word of an instruction lies in the no-op space. -/
theorem noOpGroup_encode (i : Instr) : noOpGroup (encode i) = none := by
  rw [noOpGroup, ← groupOf_toNat, ← fieldN_toNat, ← fieldKK_toNat]
  cases i with
  | cls | ret => rfl
  | _ => simp [encode, -groupOf_toNat, -fieldN_toNat, -fieldKK_toNat]

/-- Whatever decodes to no instruction lies in the no-op space: the groups without a gap are excluded, and in the others
the decoder's tests have all failed. -/
theorem noOpGroup_isSome_of_decode (h : decode w = .noOp w) : (noOpGroup w).isSome = true := by
  rw [noOpGroup, ← groupOf_toNat, ← fieldN_toNat, ← fieldKK_toNat]
  unfold decode at h
  split at h
  case h_1 hg => simpa [decodeGroup0, hg, ite_eq_iff, ← BitVec.toNat_inj, -groupOf_toNat] using h
  case h_6 hg | h_10 hg => simpa [hg, ite_eq_iff, ← BitVec.toNat_inj, -groupOf_toNat] using h
  case h_9 hg =>
    simp only [decodeGroup8] at h
    split at h
    case h_10 =>
      have hn : (fieldN w).toNat < 16 := (fieldN w).isLt
      have hlow : (fieldN w).toNat ∈ [0x8, 0x9, 0xA, 0xB, 0xC, 0xD, 0xF] := by
        simp only [imp_false, List.mem_cons, List.not_mem_nil] at *
        omega
      simp [hg, hlow, -groupOf_toNat, -fieldN_toNat]
    all_goals cases h
  case h_15 hg => simpa [decodeGroupE, hg, ite_eq_iff, ← BitVec.toNat_inj, -groupOf_toNat] using h
  case h_16 =>
    have hg : (groupOf w).toNat = 15 := by
      simp only [imp_false] at *
      omega
    simpa [decodeGroupF, hg, ite_eq_iff, ← BitVec.toNat_inj, -groupOf_toNat] using h
  all_goals cases h

/-- The no-op space is exactly what decodes to no instruction (R61). -/
theorem decode_eq_noOp_iff : decode w = .noOp w ↔ (noOpGroup w).isSome = true := by
  refine ⟨noOpGroup_isSome_of_decode, fun hsome => ?_⟩
  cases hd : decode w with
  | instr i =>
    rw [← encode_of_decode_eq_instr hd, noOpGroup_encode] at hsome
    cases hsome
  | noOp w' => rw [← hd, decode_eq_noOp_self hd]

theorem wellFormed_decode (w : Word) : (decode w).wellFormed = true := by
  cases hd : decode w with
  | instr i => rfl
  | noOp w' =>
    have hw' : w' = w := Fetched.noOp.inj (hd.symm.trans (decode_eq_noOp_self hd))
    exact decode_eq_noOp_iff.mp (hw' ▸ hd)

/-! ### The rows of the opcode map (R60) -/

theorem encode_of_and_FFFF {b : Word} (h : w &&& 0xFFFF#16 = b) : b = w := by
  rw [← h, show (0xFFFF#16 : Word) = BitVec.allOnes 16 from rfl, BitVec.and_allOnes]

theorem encodeNNN_of_and_F000 (h : w &&& 0xF000#16 = encodeNNN g 0) : encodeNNN g (fieldNNN w) = w := by
  rw [← encodeNNN_fields w, encodeNNN_and_F000] at h
  exact encodeNNN_of_group (by simpa using congrArg groupOf h)

theorem encodeXKK_of_and_F000 (h : w &&& 0xF000#16 = encodeXKK g 0 0) : encodeXKK g (fieldX w) (fieldKK w) = w := by
  rw [← encodeXKK_fields w, encodeXKK_and_F000] at h
  exact encodeXKK_of_group (by simpa using congrArg groupOf h)

theorem encodeXKK_of_and_F0FF (h : w &&& 0xF0FF#16 = encodeXKK g 0 kk) : encodeXKK g (fieldX w) kk = w := by
  rw [← encodeXKK_fields w, encodeXKK_and_F0FF] at h
  exact encodeXKK_of_group_kk (by simpa using congrArg groupOf h) (by simpa using congrArg fieldKK h)

theorem encodeXYN_of_and_F000 (h : w &&& 0xF000#16 = encodeXYN g 0 0 0) :
    encodeXYN g (fieldX w) (fieldY w) (fieldN w) = w := by
  rw [← encodeXYN_fields w, encodeXYN_and_F000] at h
  exact encodeXYN_of_group (by simpa using congrArg groupOf h)

theorem encodeXYN_of_and_F00F (h : w &&& 0xF00F#16 = encodeXYN g 0 0 n) :
    encodeXYN g (fieldX w) (fieldY w) n = w := by
  rw [← encodeXYN_fields w, encodeXYN_and_F00F] at h
  exact encodeXYN_of_group_n (by simpa using congrArg groupOf h) (by simpa using congrArg fieldN h)

/-- Every instruction's word matches its row, by the mask of its layout. -/
theorem encode_matches_row (i : Instr) : Laws.RowMatch.Statement i := by
  cases i with
  | cls | ret => rfl
  | jp | call | ldI | jpV0 => exact encodeNNN_and_F000 _ _
  | seImm | sneImm | ldImm | addImm | rnd => exact encodeXKK_and_F000 _ _ _
  | seReg | sneReg | ldReg | orReg | andReg | xorReg | addReg | sub | shr | subn | shl =>
    exact encodeXYN_and_F00F _ _ _ _
  | drw => exact encodeXYN_and_F000 _ _ _ _
  | skp | sknp | ldVxDT | ldVxK | ldDTVx | ldSTVx | addI | ldF | ldB | ldMemVx | ldVxMem =>
    exact encodeXKK_and_F0FF _ _ _

end Sys2Proof

namespace Sys2Proof.Machine

open Sys2Proof

variable {w : Word} {i j : Instr}

/-! `withFieldsOf` gives the fields as arithmetic; they are the decoder's slices. -/

theorem ofNat_eq_fieldX (w : Word) : BitVec.ofNat 4 (w.toNat / 256 % 16) = fieldX w := by
  rw [← fieldX_toNat, BitVec.ofNat_toNat, BitVec.setWidth_eq]

theorem ofNat_eq_fieldY (w : Word) : BitVec.ofNat 4 (w.toNat / 16 % 16) = fieldY w := by
  rw [← fieldY_toNat, BitVec.ofNat_toNat, BitVec.setWidth_eq]

theorem ofNat_eq_fieldN (w : Word) : BitVec.ofNat 4 (w.toNat % 16) = fieldN w := by
  rw [← fieldN_toNat, BitVec.ofNat_toNat, BitVec.setWidth_eq]

theorem ofNat_eq_fieldKK (w : Word) : BitVec.ofNat 8 (w.toNat % 256) = fieldKK w := by
  rw [← fieldKK_toNat, BitVec.ofNat_toNat, BitVec.setWidth_eq]

theorem ofNat_eq_fieldNNN (w : Word) : BitVec.ofNat 12 (w.toNat % 4096) = fieldNNN w := by
  rw [← fieldNNN_toNat, BitVec.ofNat_toNat, BitVec.setWidth_eq]

theorem withFieldsOf_row (i : Instr) (w : Word) : (withFieldsOf i w).row = i.row := by
  cases i <;> rfl

/-- A word that matches a row is the encoding of that row's instruction with the word's fields. -/
theorem encode_withFieldsOf (h : w &&& i.row.mask = i.row.bits) : encode (withFieldsOf i w) = w := by
  simp only [withFieldsOf, ofNat_eq_fieldX, ofNat_eq_fieldY, ofNat_eq_fieldN, ofNat_eq_fieldKK, ofNat_eq_fieldNNN]
  cases i with
  | cls | ret => exact encode_of_and_FFFF h
  | jp | call | ldI | jpV0 => exact encodeNNN_of_and_F000 h
  | seImm | sneImm | ldImm | addImm | rnd => exact encodeXKK_of_and_F000 h
  | seReg | sneReg | ldReg | orReg | andReg | xorReg | addReg | sub | shr | subn | shl => exact encodeXYN_of_and_F00F h
  | drw => exact encodeXYN_of_and_F000 h
  | skp | sknp | ldVxDT | ldVxK | ldDTVx | ldSTVx | addI | ldF | ldB | ldMemVx | ldVxMem =>
    exact encodeXKK_of_and_F0FF h

theorem decode_of_row_match (h : w &&& i.row.mask = i.row.bits) : decode w = .instr (withFieldsOf i w) := by
  conv_lhs => rw [← encode_withFieldsOf h]
  exact decode_encode _

theorem row_match_of_decode (h : decode w = .instr i) : w &&& i.row.mask = i.row.bits := by
  rw [← encode_of_decode_eq_instr h]
  exact encode_matches_row i

theorem row_eq_of_row_match (hi : w &&& i.row.mask = i.row.bits) (hj : w &&& j.row.mask = j.row.bits) :
    i.row = j.row := by
  have h : withFieldsOf i w = withFieldsOf j w :=
    Fetched.instr.inj ((decode_of_row_match hi).symm.trans (decode_of_row_match hj))
  rw [← withFieldsOf_row i w, h, withFieldsOf_row]

/-! ### The obligations -/

/-- Settles O2: an instruction by `decode_encode`, a no-op because its word decodes to no instruction. -/
theorem decodeOfEncode : Obligations.DecodeOfEncode := by
  intro f hf
  cases f with
  | instr i => exact decode_encode i
  | noOp w => exact decode_eq_noOp_iff.mpr hf

/-- Settles O3: the decoder's term is well formed, and encodes back to the word of the two bytes. -/
theorem decodeTotalAndLossless : Obligations.DecodeTotalAndLossless := by
  intro hi lo rest
  refine ⟨decode (wordOfBytes hi lo), rfl, wellFormed_decode _, ?_, ?_⟩
  · rw [encode_decode, highByte_wordOfBytes]
  · rw [encode_decode, lowByte_wordOfBytes]

/-- Settles O4: a word that matches a row decodes by its fields, and a word that decodes to an instruction is its encoding,
which matches its row. -/
theorem decodeFollowsOpcodeMap : Obligations.DecodeFollowsOpcodeMap := by
  refine ⟨fun w i => ⟨?_, fun h => ?_⟩, fun w i j => row_eq_of_row_match, fun w i => decode_of_row_match⟩
  · rintro ⟨j, hj, hrow⟩
    rw [← hrow]
    exact row_match_of_decode hj
  · exact ⟨withFieldsOf i w, decode_of_row_match h, withFieldsOf_row i w⟩

/-- Settles O5: the first part is `decode_eq_noOp_iff`; a word matches a row exactly when it decodes to an instruction. -/
theorem noOpSpaceIsTheRest : Obligations.NoOpSpaceIsTheRest := by
  refine fun w => ⟨decode_eq_noOp_iff, fun h i hi => ?_, fun h => ?_⟩
  · rw [decode_of_row_match hi] at h
    cases h
  · cases hd : decode w with
    | instr i => exact absurd (row_match_of_decode hd) (h i)
    | noOp w' => rw [← hd, decode_eq_noOp_self hd]

/-- Settles O1: each word is a closed term, which the decoder computes. -/
theorem sampleWordsDecode : Obligations.SampleWordsDecode := by
  unfold Obligations.SampleWordsDecode
  decide

end Sys2Proof.Machine
end

section
/-! Frames (R13, R16, R19, R21 to R26, R33): which parts of the machine, and which registers, the execute stage of an
instruction may change. The part frame of every named write is said once; that of an instruction is its write's, by
`exec_next`. -/

namespace Sys2Proof.Machine

open Sys2Proof

variable {i : Instr} {s t u : State} {ps qs : List Part} {rs : List Nibble}

/-! ### Combining frames -/

theorem ChangesOnly.refl {ps : List Part} (s : State) : ChangesOnly ps s s := by
  intro p _
  cases p with
  | memory => exact fun _ => rfl
  | regs => exact fun _ => rfl
  | stack => exact ⟨rfl, rfl⟩
  | index | pc | delay | sound | keypad | plane | draws => rfl

theorem Part.same_trans {p : Part} (hst : p.same s t) (htu : p.same t u) : p.same s u := by
  cases p with
  | memory => exact fun a => (htu a).trans (hst a)
  | regs => exact fun r => (htu r).trans (hst r)
  | stack => exact ⟨htu.1.trans hst.1, htu.2.trans hst.2⟩
  | index | pc | delay | sound | keypad | plane | draws => exact Eq.trans htu hst

theorem ChangesOnly.trans (hst : ChangesOnly ps s t) (htu : ChangesOnly qs t u) : ChangesOnly (ps ++ qs) s u := by
  intro p hp
  rw [List.mem_append, not_or] at hp
  exact Part.same_trans (hst p hp.1) (htu p hp.2)

theorem ChangesOnly.mono (hsub : ps ⊆ qs) (h : ChangesOnly ps s t) : ChangesOnly qs s t :=
  fun p hp => h p fun hps => hp (hsub hps)

/-! ### The remaining writes -/

theorem changesOnly_setMem (s : State) (m : Memory) : ChangesOnly [.memory] s (s.setMem m) := by
  intro p hp
  cases p with
  | regs => exact fun _ => rfl
  | stack => exact ⟨rfl, rfl⟩
  | index | pc | delay | sound | keypad | plane | draws => rfl
  | memory => simp at hp

theorem changesOnly_setDT (s : State) (b : Byte) : ChangesOnly [.delay] s (s.setDT b) := by
  intro p hp
  cases p with
  | memory => exact fun _ => rfl
  | regs => exact fun _ => rfl
  | stack => exact ⟨rfl, rfl⟩
  | index | pc | sound | keypad | plane | draws => rfl
  | delay => simp at hp

theorem changesOnly_setST (s : State) (b : Byte) : ChangesOnly [.sound] s (s.setST b) := by
  intro p hp
  cases p with
  | memory => exact fun _ => rfl
  | regs => exact fun _ => rfl
  | stack => exact ⟨rfl, rfl⟩
  | index | pc | delay | keypad | plane | draws => rfl
  | sound => simp at hp

theorem changesOnly_setKey (s : State) (k : Fin 16) (b : Bool) : ChangesOnly [.keypad] s (s.setKey k b) := by
  intro p hp
  cases p with
  | memory => exact fun _ => rfl
  | regs => exact fun _ => rfl
  | stack => exact ⟨rfl, rfl⟩
  | index | pc | delay | sound | plane | draws => rfl
  | keypad => simp at hp

theorem changesOnly_drawRandom (s : State) : ChangesOnly [.draws] s s.drawRandom.2 := by
  intro p hp
  cases p with
  | memory => exact fun _ => rfl
  | regs => exact fun _ => rfl
  | stack => exact ⟨rfl, rfl⟩
  | index | pc | delay | sound | keypad | plane => rfl
  | draws => simp at hp

/-- A call or a return writes the stack and pc (R75, R77). -/
theorem changesOnly_stack_pc (s : State) (slots : Vector Word 16) (sp : Fin 17) (pc : Word) :
    ChangesOnly [.pc, .stack] s { s with stack := slots, sp := sp, pc := pc } := by
  intro p hp
  cases p with
  | memory => exact fun _ => rfl
  | regs => exact fun _ => rfl
  | index | delay | sound | keypad | plane | draws => rfl
  | pc | stack => simp at hp

theorem changesOnly_loadBlock (base r count : Nat) (s : State) :
    ChangesOnly [.regs] s (State.loadBlock base r count s) := by
  rw [State.loadBlock_rest]
  exact changesOnly_regs s _

theorem changesOnly_tick (s : State) : ChangesOnly [.delay, .sound] s s.tick :=
  (changesOnly_setDT s (tickTimer s.dt)).trans (changesOnly_setST (s.setDT (tickTimer s.dt)) (tickTimer s.st))

/-- What a key wait that ended has written: pc, or its register (R111). -/
theorem exec_ldVxK_next {x : Nibble} (h : exec (.ldVxK x) s = .next t) :
    t = s.setPc (s.pc - 2) ∨ ∃ b, t = s.writeV x b := by
  cases hlow : lowestPressed s.key with
  | none =>
    rw [exec_ldVxK_of_none x hlow] at h
    exact .inl (Host.Outcome.next.inj h).symm
  | some k =>
    rw [exec_ldVxK_of_some x hlow] at h
    exact .inr ⟨_, (Host.Outcome.next.inj h).symm⟩

/-! ### The parts -/

/-- Settles O19: what each instruction ends in is one named write, or two. -/
theorem partsChangeOnlyAsListed : Obligations.PartsChangeOnlyAsListed := by
  intro i s t h
  have ht := exec_next h
  cases i with
  | ldVxK x =>
    obtain rfl | ⟨b, rfl⟩ := exec_ldVxK_next h
    · exact (changesOnly_setPc s _).mono (by simp [partsWritten])
    · exact (changesOnly_writeV s x b).mono (by simp [partsWritten])
  | cls => exact ht ▸ changesOnly_setFB s _
  | drw => exact ht ▸ (changesOnly_setFB s _).trans (changesOnly_writeV _ _ _)
  | ret => exact ht ▸ changesOnly_stack_pc s s.stack t.sp t.pc
  | call => exact ht ▸ changesOnly_stack_pc s t.stack t.sp _
  | jp | jpV0 => exact ht ▸ changesOnly_setPc s _
  | skp | sknp => exact ht ▸ changesOnly_setPc s t.pc
  | seImm | sneImm | seReg | sneReg => exact ht ▸ changesOnly_skipIf s _
  | ldImm | addImm | ldReg | orReg | andReg | xorReg | ldVxDT => exact ht ▸ changesOnly_writeV s _ _
  | addReg | sub | shr | subn | shl => exact ht ▸ changesOnly_writeResultFlag s _ _ _
  | ldVxMem => exact ht ▸ changesOnly_loadBlock _ _ _ s
  | rnd => exact ht ▸ ((changesOnly_drawRandom s).trans (changesOnly_writeV _ _ _)).mono (by simp [partsWritten])
  | ldI | addI | ldF => exact ht ▸ changesOnly_setI s _
  | ldDTVx => exact ht ▸ changesOnly_setDT s _
  | ldSTVx => exact ht ▸ changesOnly_setST s _
  | ldB | ldMemVx => exact ht ▸ changesOnly_setMem s _

/-- A part that is not listed for an instruction is the same after it. -/
theorem part_same_of_exec_next (h : exec i s = .next t) {p : Part} (hp : p ∉ partsWritten i) : p.same s t :=
  partsChangeOnlyAsListed i s t h p hp

/-! ### The registers -/

theorem regsSameBut_loadBlock (base : Nat) (x : Nibble) (s : State) :
    RegsSameBut (destRegs (.ldVxMem x)) s (State.loadBlock base 0 (blockCount x) s) := by
  intro r hr
  have hrx : ¬r.toNat < x.toNat + 1 := by
    intro hlt
    exact hr (List.mem_map.mpr ⟨r.toNat, List.mem_range.mpr hlt, by rw [BitVec.ofNat_toNat, BitVec.setWidth_eq]⟩)
  rw [State.readV_loadBlock _ _ _ _ _ (by rw [blockCount_eq]; omega), if_neg (by rw [blockCount_eq]; omega)]

/-- Settles O18: where the registers are among the parts listed for an instruction, by the register frame of its write;
where they are not, by the part frame. -/
theorem registersChangeOnlyAsListed : Obligations.RegistersChangeOnlyAsListed := by
  intro i s t h
  have ht := exec_next h
  cases i with
  | ldVxK x =>
    obtain rfl | ⟨b, rfl⟩ := exec_ldVxK_next h
    · exact fun r _ => s.readV_setPc _ r
    · exact regsSameBut_writeV s x b
  | drw => exact ht ▸ regsSameBut_writeV _ vF _
  | ldImm | addImm | ldReg | orReg | andReg | xorReg | ldVxDT => exact ht ▸ regsSameBut_writeV s _ _
  | rnd x kk => exact ht ▸ regsSameBut_writeV _ x _
  | addReg | sub | shr | subn | shl => exact ht ▸ regsSameBut_writeResultFlag s _ _ _
  | ldVxMem x => exact ht ▸ regsSameBut_loadBlock _ x s
  | _ => exact fun r _ => part_same_of_exec_next h (p := .regs) (by simp [partsWritten]) r

end Sys2Proof.Machine
end

section
/-! The instructions that can fault (R115), by their condition as the table of R115 writes it: what they answer in the one
case and in the other. -/

namespace Sys2Proof.Machine

open Sys2Proof

variable {s : State} {x : Nibble}

theorem exec_ldB_of_lt (h : s.i.toNat + 2 < 4096) :
    exec (.ldB x) s = .next (s.setMem (s.mem.writeBytes s.i.toNat (bcdDigits (s.readV x)))) :=
  State.withIndexRange_of_le h _

theorem exec_ldB_of_ge (h : 4096 ≤ s.i.toNat + 2) :
    exec (.ldB x) s = .fault (.outOfBoundsAccess .index (max s.i.toNat 4096)) :=
  State.withIndexRange_of_gt (by decide) (by omega) _

theorem exec_ldMemVx_of_lt (h : s.i.toNat + x.toNat < 4096) :
    exec (.ldMemVx x) s = .next (s.setMem (s.mem.writeBytes s.i.toNat (s.blockBytes x))) :=
  State.withIndexRange_of_le h _

theorem exec_ldMemVx_of_ge (h : 4096 ≤ s.i.toNat + x.toNat) :
    exec (.ldMemVx x) s = .fault (.outOfBoundsAccess .index (max s.i.toNat 4096)) :=
  State.withIndexRange_of_gt (Nat.succ_ne_zero _) (Nat.lt_succ_of_le h) _

theorem exec_ldVxMem_of_lt (h : s.i.toNat + x.toNat < 4096) :
    exec (.ldVxMem x) s = .next (State.loadBlock s.i.toNat 0 (x.toNat + 1) s) :=
  State.withIndexRange_of_le h _

theorem exec_ldVxMem_of_ge (h : 4096 ≤ s.i.toNat + x.toNat) :
    exec (.ldVxMem x) s = .fault (.outOfBoundsAccess .index (max s.i.toNat 4096)) :=
  State.withIndexRange_of_gt (Nat.succ_ne_zero _) (Nat.lt_succ_of_le h) _

theorem exec_drw_of_lt {n : Nibble} (h : n.toNat = 0 ∨ s.i.toNat + n.toNat - 1 < 4096) (x y : Nibble) :
    exec (.drw x y n) s =
      .next ((s.setFB (drawnCanvas x y n s).fb).writeV vF (flagByte (drawnCanvas x y n s).collision)) :=
  execDrw_of_le (by omega) x y

theorem exec_drw_of_ge {n : Nibble} (h0 : n.toNat ≠ 0) (h : 4096 ≤ s.i.toNat + n.toNat - 1) (x y : Nibble) :
    exec (.drw x y n) s = .fault (.outOfBoundsAccess .sprite (max s.i.toNat 4096)) :=
  execDrw_of_gt h0 (by omega) x y

theorem exec_skp_of_lt (h : (s.readV x).toNat < 16) :
    exec (.skp x) s = .next (s.skipIf s.key[(s.readV x).toNat]) := by
  rw [exec, execSkp, State.withKey_of_lt h]

theorem exec_skp_of_ge (h : 16 ≤ (s.readV x).toNat) :
    exec (.skp x) s = .fault (.outOfBoundsAccess .key (s.readV x).toNat) := by
  rw [exec, execSkp, State.withKey_of_ge h]

theorem exec_sknp_of_lt (h : (s.readV x).toNat < 16) :
    exec (.sknp x) s = .next (s.skipIf !s.key[(s.readV x).toNat]) := by
  rw [exec, execSknp, State.withKey_of_lt h]

theorem exec_sknp_of_ge (h : 16 ≤ (s.readV x).toNat) :
    exec (.sknp x) s = .fault (.outOfBoundsAccess .key (s.readV x).toNat) := by
  rw [exec, execSknp, State.withKey_of_ge h]

end Sys2Proof.Machine
end

section
/-! The step (R64 to R73): the tick as the obligations write it, the fault of a step as the table of R115 lists it, and that
a faulting step is the same whatever the keys and the draw. -/

namespace Sys2Proof.Machine

open Sys2Proof

variable {i : Instr} {s t : State} {f : Fault}

/-! ### The step of a decoded instruction -/

/-- The tick by the value 0 (R70). -/
theorem tickTimer_eq (b : Byte) : tickTimer b = if b = 0 then 0 else b - 1 := by
  unfold tickTimer
  by_cases hb : b = 0
  · rw [if_pos hb, if_neg (by simp [hb]), hb]
  · rw [if_neg hb, if_pos (Nat.pos_of_ne_zero fun h => hb (BitVec.eq_of_toNat_eq h))]

theorem decodeBytes_pair (hi lo : Byte) : decodeBytes [hi, lo] = .ok (decode (wordOfBytes hi lo), []) := rfl

/-- Settles O6: the decoded instruction is what the execute stage runs, and the tick is written by the value 0. -/
theorem stepRunsTheDecodedInstruction : Obligations.StepRunsTheDecodedInstruction := by
  intro s i hpc hdec
  have hi : decode s.wordAtPc = .instr i := by
    rw [decodeBytes_pair] at hdec
    exact congrArg Prod.fst (Except.ok.inj hdec)
  rw [step_of_lt hpc, hi]
  simp only [execFetched, State.tick, tickTimer_eq]
  rfl

/-! ### The faults (R115, R125) -/

/-- Whether the execute stage of the instruction at pc faults, and how, is what the table of R115 lists for it. -/
theorem exec_eq_fault_iff (hpc : s.pc.toNat + 1 < 4096) (hi : decode s.wordAtPc = .instr i) :
    exec i s.advance = .fault f ↔ faultCondition s = some f := by
  rw [faultCondition, if_neg (by omega), hi]
  cases i with
  | call nnn =>
    by_cases hsp : s.sp.val = 16
    · simp [exec, execCall_of_full (s := s.advance) hsp, hsp]
    · simp [exec, execCall_of_lt (s := s.advance) (show s.sp.val < 16 by omega), hsp]
  | ret =>
    by_cases hsp : s.sp.val = 0
    · simp [exec, execRet_of_empty (s := s.advance) hsp, hsp]
    · simp [exec, execRet_of_pos (s := s.advance) (Nat.pos_of_ne_zero hsp), hsp]
  | ldB x =>
    by_cases h : 4096 ≤ s.i.toNat + 2
    · simp [exec_ldB_of_ge (s := s.advance) h, h]
    · simp [exec_ldB_of_lt (s := s.advance) (Nat.lt_of_not_le h), h]
  | ldMemVx x =>
    by_cases h : 4096 ≤ s.i.toNat + x.toNat
    · simp [exec_ldMemVx_of_ge (s := s.advance) h, h]
    · simp [exec_ldMemVx_of_lt (s := s.advance) (Nat.lt_of_not_le h), h]
  | ldVxMem x =>
    by_cases h : 4096 ≤ s.i.toNat + x.toNat
    · simp [exec_ldVxMem_of_ge (s := s.advance) h, h]
    · simp [exec_ldVxMem_of_lt (s := s.advance) (Nat.lt_of_not_le h), h]
  | drw x y n =>
    by_cases h : 0 < n.toNat ∧ 4096 ≤ s.i.toNat + n.toNat - 1
    · simp [exec_drw_of_ge (s := s.advance) (by omega) h.2, h]
    · have hn : n.toNat = 0 ∨ s.i.toNat + n.toNat - 1 < 4096 := by omega
      simp [exec_drw_of_lt (s := s.advance) hn, h]
  | skp x =>
    by_cases h : 16 ≤ (s.readV x).toNat
    · simp [exec_skp_of_ge (s := s.advance) h, h]
    · simp [exec_skp_of_lt (s := s.advance) (Nat.lt_of_not_le h), h]
  | sknp x =>
    by_cases h : 16 ≤ (s.readV x).toNat
    · simp [exec_sknp_of_ge (s := s.advance) h, h]
    · simp [exec_sknp_of_lt (s := s.advance) (Nat.lt_of_not_le h), h]
  | ldVxK x =>
    obtain ⟨u, hu⟩ := exists_execLdVxK_eq_next x s.advance
    simp [exec, hu]
  | _ => exact ⟨nofun, nofun⟩

theorem step_eq_fault_iff : step s = .fault f ↔ faultCondition s = some f := by
  by_cases hpc : s.pc.toNat + 1 < 4096
  · have hstep : step s = .fault f ↔ execFetched (decode s.wordAtPc) s.advance = .fault f := by
      simp only [step_eq_fault, hpc, Nat.not_le.mpr hpc, false_and, false_or, true_and]
    rw [hstep]
    cases hd : decode s.wordAtPc with
    | instr i => exact exec_eq_fault_iff hpc hd
    | noOp w =>
      rw [faultCondition, if_neg (by omega), hd]
      exact ⟨nofun, nofun⟩
  · rw [step_of_ge (by omega), faultCondition, if_pos (by omega)]
    have hmax : max s.pc.toNat 4096 = if 4096 ≤ s.pc.toNat then s.pc.toNat else s.pc.toNat + 1 := by
      split_ifs <;> omega
    rw [hmax, Host.Outcome.fault.injEq, Option.some.injEq]

/-- Settles O12: the first part is `step_eq_fault_iff`, and a step that does not fault is `Ok`. -/
theorem stepFaultsExactlyWhenListed : Obligations.StepFaultsExactlyWhenListed := by
  refine fun s => ⟨fun f => step_eq_fault_iff, fun hnone => ?_⟩
  obtain hok | ⟨f, hf⟩ := s.stepOk_or_fault
  · exact hok
  · rw [step_eq_fault_iff.mp hf] at hnone
    cases hnone

/-- A fault with source fetch needs a pc that cannot be fetched from (R119). -/
theorem faultCondition_ne_fetch (hpc : s.pc.toNat + 1 < 4096) (a : Nat) :
    faultCondition s ≠ some (.outOfBoundsAccess .fetch a) := by
  rw [faultCondition, if_neg (by omega)]
  split
  case h_9 => nofun
  all_goals split_ifs <;> simp

/-- Settles O7: past the end by `step_of_ge`, and below it because no other fault has source fetch. -/
theorem fetchFaultsPastTheEnd : Obligations.FetchFaultsPastTheEnd := by
  refine fun s => ⟨fun h => ?_, fun h => ?_, fun h a hf => ?_⟩
  · rw [step_of_ge (by omega), Nat.max_eq_left h]
  · rw [step_of_ge (by omega), h]
    rfl
  · exact faultCondition_ne_fetch h a (step_eq_fault_iff.mp hf)

/-- What the table of faults does not mention has no part in a fault. -/
theorem step_fault_of_faultCondition_eq (hf : step s = .fault f) (hcond : faultCondition t = faultCondition s) :
    step t = .fault f :=
  step_eq_fault_iff.mpr (hcond.trans (step_eq_fault_iff.mp hf))

/-- Settles O13: neither the keypad nor the count of draws occurs in the table of faults. -/
theorem faultedMachineStaysAndFaultsAgain : Obligations.FaultedMachineStaysAndFaultsAgain := by
  intro font s f hf
  exact ⟨by rw [serve, hf], fun k p => step_fault_of_faultCondition_eq hf rfl,
    fun n => step_fault_of_faultCondition_eq hf rfl⟩

end Sys2Proof.Machine
end

section
/-! Canonical memory (R31): a canonical list is determined by what it reads, so construction with the default font lists no
cell at all; and every write of the machine keeps the form. -/

namespace Sys2Proof.Machine

open Sys2Proof

variable {s : State}

theorem Memory.ne_resetByte_of_wfFrom {lo k : Nat} {b : Byte} {m : Memory} (h : Memory.wfFrom lo ((k, b) :: m) = true) :
    b ≠ resetByte k := by
  obtain ⟨-, -, hb, -⟩ := Memory.wfFrom_cons.mp h
  exact hb

theorem Memory.wfFrom_tail {lo k : Nat} {b : Byte} {m : Memory} (h : Memory.wfFrom lo ((k, b) :: m) = true) :
    Memory.wfFrom (k + 1) m = true := by
  obtain ⟨-, -, -, hm⟩ := Memory.wfFrom_cons.mp h
  exact hm

/-- A canonical memory reads its first cell's byte there, and as construction left it anywhere below. -/
theorem Memory.read_cons_of_le {lo k a : Nat} {b : Byte} {m : Memory} (h : Memory.wfFrom lo ((k, b) :: m) = true)
    (ha : a ≤ k) : Memory.read ((k, b) :: m) a = if a = k then b else resetByte a := by
  rw [Memory.read_cons]
  split_ifs with h1 h2 h2
  · rfl
  · exact absurd h1.symm h2
  · exact absurd h2.symm h1
  · exact Memory.read_of_lt (Memory.wfFrom_tail h) (by omega)

/-- The first cell of a canonical memory is where it first differs from construction. -/
theorem Memory.le_of_read_eq {lo lo' k k' : Nat} {b b' : Byte} {m m' : Memory}
    (h : Memory.wfFrom lo ((k, b) :: m) = true) (h' : Memory.wfFrom lo' ((k', b') :: m') = true)
    (hread : ∀ a, Memory.read ((k, b) :: m) a = Memory.read ((k', b') :: m') a) : k' ≤ k := by
  by_contra hlt
  have hk := hread k
  rw [Memory.read_cons_of_le h le_rfl, Memory.read_cons_of_le h' (by omega), if_pos rfl, if_neg (by omega)] at hk
  exact Memory.ne_resetByte_of_wfFrom h hk

/-- The tails of two canonical memories with the same first address read alike where the whole memories do. -/
theorem Memory.read_tail_eq {lo k a : Nat} {b b' : Byte} {m m' : Memory}
    (h : Memory.wfFrom lo ((k, b) :: m) = true) (h' : Memory.wfFrom lo ((k, b') :: m') = true)
    (hread : ∀ a, Memory.read ((k, b) :: m) a = Memory.read ((k, b') :: m') a) : Memory.read m a = Memory.read m' a := by
  by_cases hak : a < k + 1
  · rw [Memory.read_of_lt (Memory.wfFrom_tail h) hak, Memory.read_of_lt (Memory.wfFrom_tail h') hak]
  · have ha := hread a
    rwa [Memory.read_cons, Memory.read_cons, if_neg (by omega), if_neg (by omega)] at ha

theorem Memory.read_cons_nil_ne {lo k : Nat} {b : Byte} {m : Memory} (h : Memory.wfFrom lo ((k, b) :: m) = true) :
    Memory.read ((k, b) :: m) k ≠ Memory.read [] k := by
  rw [Memory.read_cons_of_le h le_rfl, if_pos rfl, Memory.read_nil]
  exact Memory.ne_resetByte_of_wfFrom h

theorem Memory.eq_of_read_eq {lo : Nat} {m n : Memory} (hm : Memory.wfFrom lo m = true) (hn : Memory.wfFrom lo n = true)
    (hread : ∀ a, m.read a = n.read a) : m = n := by
  induction m generalizing lo n with
  | nil =>
    cases n with
    | nil => rfl
    | cons c n => exact absurd (hread c.1).symm (Memory.read_cons_nil_ne hn)
  | cons c m ih =>
    cases n with
    | nil => exact absurd (hread c.1) (Memory.read_cons_nil_ne hm)
    | cons d n =>
      obtain ⟨k, b⟩ := c
      obtain ⟨k', b'⟩ := d
      obtain rfl : k' = k := Nat.le_antisymm (Memory.le_of_read_eq hm hn hread)
        (Memory.le_of_read_eq hn hm fun a => (hread a).symm)
      have hb : b = b' := by simpa using hread k'
      have htail : m = n := ih (Memory.wfFrom_tail hm) (Memory.wfFrom_tail hn)
        fun a => Memory.read_tail_eq hm hn hread
      rw [hb, htail]

/-- Settles O17: the form is that from address 0 up. -/
theorem canonicalMemoryIsUnique : Obligations.CanonicalMemoryIsUnique :=
  fun _ _ hm hn hread => Memory.eq_of_read_eq hm hn hread

/-! ### Construction -/

theorem State.construct_mem_wf (font : Font) : (State.construct font).mem.wf = true :=
  Memory.wf_writeBytes Memory.wf_nil font.toList (by rw [Vector.length_toList]; decide)

theorem State.construct_inv (font : Font) : (State.construct font).Inv where
  memory := State.construct_mem_wf font
  pc := by rw [State.construct_pc]; decide
  slots k := by rw [State.stack_construct]; decide

/-- With the default font every address reads as in the reset state, so the memory is its memory. -/
theorem State.construct_defaultFont : State.construct defaultFont = State.reset := by
  have hmem : (State.construct defaultFont).mem = State.reset.mem :=
    canonicalMemoryIsUnique _ _ (State.construct_mem_wf defaultFont) Memory.wf_nil (State.construct_mem_read defaultFont)
  calc State.construct defaultFont = State.reset.setMem (State.construct defaultFont).mem := rfl
    _ = State.reset := by rw [hmem]; rfl

/-- Settles O14: any font by its construction, and the reset state as the construction with the default font. -/
theorem constructionMeetsInvariant : Obligations.ConstructionMeetsInvariant :=
  ⟨State.construct_inv, State.construct_defaultFont, State.construct_defaultFont ▸ State.construct_inv defaultFont⟩

end Sys2Proof.Machine
end

section
/-! What every `Ok` step does to pc, to the timers and to memory, and with it the invariant (R19, R20, R33, R70): the
execute stage's effect on each, carried over the advance and the tick. -/

namespace Sys2Proof.Machine

open Sys2Proof

variable {i : Instr} {s t u : State}

/-- What an `Ok` step has done: the execute stage of the instruction at pc between the advance and the tick, or, for a
no-op, nothing between them (R73). -/
theorem step_next_cases (h : step s = .next t) :
    s.pc.toNat + 1 < 4096 ∧
      ((∃ i u, decode s.wordAtPc = .instr i ∧ exec i s.advance = .next u ∧ t = u.tick) ∨
        ∃ w, decode s.wordAtPc = .noOp w ∧ t = s.advance.tick) := by
  obtain ⟨hpc, u, hu, rfl⟩ := step_eq_next.mp h
  cases hd : decode s.wordAtPc with
  | instr i =>
    rw [hd] at hu
    exact ⟨hpc, .inl ⟨i, u, rfl, hu, rfl⟩⟩
  | noOp w =>
    rw [hd] at hu
    cases hu
    exact ⟨hpc, .inr ⟨w, rfl, rfl⟩⟩

theorem step_of_exec_next (hpc : s.pc.toNat + 1 < 4096) (hi : decode s.wordAtPc = .instr i)
    (hu : exec i s.advance = .next u) : step s = .next u.tick :=
  step_of_execFetched_next hpc (by rw [hi]; exact hu)

/-! ### pc (R19) -/

theorem State.advance_skipIf_pc_toNat (hpc : s.pc.toNat + 1 < 4096) (c : Bool) :
    (s.advance.skipIf c).pc.toNat = if c = true then s.pc.toNat + 4 else s.pc.toNat + 2 := by
  have hadv := State.advance_pc_toNat hpc
  rw [State.skipIf_eq]
  split_ifs
  · rw [BitVec.toNat_add, hadv]
    simp only [BitVec.ofNat_eq_ofNat, BitVec.toNat_ofNat]
    omega
  · exact hadv

theorem jpV0_target_toNat (b : Byte) (nnn : Imm12) :
    (wordOfByte b + addrOperand nnn).toNat = b.toNat + nnn.toNat := by
  rw [BitVec.toNat_add, wordOfByte_toNat, addrOperand_toNat]
  omega

theorem toList_getD_of_lt {α : Type} {n k : Nat} (v : Vector α n) (h : k < n) (d : α) : v.toList.getD k d = v[k] := by
  rw [List.getD_eq_getElem _ _ (by rwa [Vector.length_toList]), Vector.getElem_toList]

/-- Where Fx0A stops being a wait is where some key is pressed (R111). -/
theorem exists_pressed_of_lowestPressed {key : Vector Bool 16} {k : Fin 16} (h : lowestPressed key = some k) :
    ∃ j : Fin 16, key[j] = true := by
  by_contra hnone
  have hall : ∀ j : Fin 16, key[j] = false := fun j => Bool.eq_false_iff.mpr fun hj => hnone ⟨j, hj⟩
  rw [lowestPressed_eq_none.mpr hall] at h
  cases h

theorem exec_ldVxK_advance_pc {x : Nibble} (hpc : s.pc.toNat + 1 < 4096) (h : exec (.ldVxK x) s.advance = .next u) :
    u.pc.toNat = if ∃ k : Fin 16, s.key[k] = true then s.pc.toNat + 2 else s.pc.toNat := by
  cases hlow : lowestPressed s.key with
  | none =>
    have hnone : ¬∃ k : Fin 16, s.key[k] = true := fun ⟨k, hk⟩ => by simp [lowestPressed_eq_none.mp hlow k] at hk
    rw [exec_ldVxK_of_none (s := s.advance) x hlow] at h
    obtain rfl := Host.Outcome.next.inj h
    rw [if_neg hnone]
    exact congrArg BitVec.toNat s.instrAddr_advance
  | some k =>
    rw [exec_ldVxK_of_some (s := s.advance) x hlow] at h
    obtain rfl := Host.Outcome.next.inj h
    rw [if_pos (exists_pressed_of_lowestPressed hlow)]
    exact State.advance_pc_toNat hpc

/-- The execute stage of the instruction at pc leaves pc where the table of R19 says. -/
theorem exec_advance_pc (hpc : s.pc.toNat + 1 < 4096) (hi : decode s.wordAtPc = .instr i)
    (h : exec i s.advance = .next u) : u.pc.toNat = pcAfter s := by
  have hu := exec_next h
  have hadv := State.advance_pc_toNat hpc
  rw [pcAfter, hi]
  cases i with
  | jp nnn => exact hu ▸ addrOperand_toNat nnn
  | call nnn => exact hu ▸ addrOperand_toNat nnn
  | jpV0 nnn => exact hu ▸ jpV0_target_toNat _ nnn
  | seImm | sneImm | seReg | sneReg => exact hu ▸ State.advance_skipIf_pc_toNat hpc _
  | skp x =>
    obtain ⟨hx, rfl⟩ := execSkp_next h
    dsimp only
    rw [toList_getD_of_lt s.key (show (s.readV x).toNat < 16 from hx)]
    exact State.advance_skipIf_pc_toNat hpc _
  | sknp x =>
    obtain ⟨hx, rfl⟩ := execSknp_next h
    dsimp only
    rw [toList_getD_of_lt s.key (show (s.readV x).toNat < 16 from hx)]
    exact State.advance_skipIf_pc_toNat hpc _
  | ret =>
    obtain ⟨hsp, rfl⟩ := execRet_next h
    dsimp only
    rw [toList_getD_of_lt s.stack (show s.sp.val - 1 < 16 by omega)]
    rfl
  | ldVxK x => exact exec_ldVxK_advance_pc hpc h
  | _ =>
    have hsame : u.pc = s.advance.pc := part_same_of_exec_next h (p := .pc) (by simp [partsWritten])
    rw [hsame]
    exact hadv

/-- Settles O10: the table's last row, pc + 2, is also the no-op's. -/
theorem pcAfterEveryOkStep : Obligations.PcAfterEveryOkStep := by
  intro s t h
  obtain ⟨hpc, ⟨i, u, hi, hu, rfl⟩ | ⟨w, hw, rfl⟩⟩ := step_next_cases h
  · exact exec_advance_pc (u := u) hpc hi hu
  · rw [pcAfter, hw]
    exact State.advance_pc_toNat hpc

/-! ### Memory and the stack -/

theorem State.skipIf_mem (s : State) (c : Bool) : (s.skipIf c).mem = s.mem := by
  rw [State.skipIf_eq]

/-- The execute stage of Fx33 or Fx55 stores bytes from `I` that are all in memory (R44); that of any other instruction
keeps memory as it is. -/
theorem exec_next_mem (h : exec i s = .next t) :
    t.mem = s.mem ∨ ∃ bs : List Byte, bs.length = bytesStored i ∧ s.i.toNat + bs.length ≤ 4096 ∧
      t.mem = s.mem.writeBytes s.i.toNat bs := by
  have ht := congrArg State.mem (exec_next h)
  cases i with
  | ldB x =>
    obtain ⟨-, hle⟩ := State.withIndexRange_next h
    exact .inr ⟨_, bcdDigits_length _, by simp at hle ⊢; omega, ht⟩
  | ldMemVx x =>
    obtain ⟨-, hle⟩ := State.withIndexRange_next h
    exact .inr ⟨_, s.blockBytes_length x, by simp at hle ⊢; omega, ht⟩
  | ldVxMem x => exact .inl (ht.trans (State.loadBlock_mem _ _ _ s))
  | seImm | sneImm | seReg | sneReg => exact .inl (ht.trans (State.skipIf_mem s _))
  | _ => exact .inl ht

theorem exec_next_mem_wf (hs : s.mem.wf = true) (h : exec i s = .next t) : t.mem.wf = true := by
  obtain hsame | ⟨bs, -, hle, hbs⟩ := exec_next_mem h
  · rw [hsame, hs]
  · rw [hbs]
    exact Memory.wf_writeBytes hs bs hle

theorem exec_next_memorySameOutside (hs : s.mem.wf = true) (h : exec i s = .next t) :
    MemorySameOutside s.i.toNat (bytesStored i) s t := by
  intro a ha
  obtain hsame | ⟨bs, hlen, hle, hbs⟩ := exec_next_mem h
  · rw [hsame]
  · rw [hbs, Memory.read_writeBytes hs bs hle, if_neg (hlen ▸ ha)]

/-- A slot of the stack after the execute stage is an old one, or the pc that a call pushed (R77). -/
theorem exec_next_stack (h : exec i s = .next t) (k : Fin 16) : t.stack[k] = s.stack[k] ∨ t.stack[k] = s.pc := by
  cases i with
  | call nnn =>
    obtain ⟨hsp, rfl⟩ := execCall_next h
    simp only [Fin.getElem_fin, Vector.getElem_set]
    split_ifs
    · exact .inr rfl
    · exact .inl rfl
  | ret =>
    obtain ⟨hsp, rfl⟩ := execRet_next h
    exact .inl rfl
  | _ =>
    have hsame := part_same_of_exec_next h (p := .stack) (by simp [partsWritten])
    exact .inl (by rw [hsame.1])

/-- Settles O20: the advance and the tick write no memory and leave `I`. -/
theorem stepStoresOnlyFromIndex : Obligations.StepStoresOnlyFromIndex := by
  intro s t hs h
  obtain ⟨-, ⟨i, u, hi, hu, rfl⟩ | ⟨w, hw, rfl⟩⟩ := step_next_cases h
  · rw [hi]
    exact exec_next_memorySameOutside (s := s.advance) (t := u) hs hu
  · exact fun _ _ => rfl

/-! ### The invariant (R20, R31) -/

theorem stack_getD_le (hslots : ∀ k : Fin 16, s.stack[k].toNat ≤ 0x1000) (k : Nat) :
    (s.stack.toList.getD k 0).toNat ≤ 0x1000 := by
  by_cases hk : k < 16
  · rw [toList_getD_of_lt s.stack hk]
    exact hslots ⟨k, hk⟩
  · rw [List.getD_eq_default _ _ (by rw [Vector.length_toList]; omega)]
    decide

/-- The largest pc of the table of R19 is the sum of Bnnn (R82). -/
theorem pcAfter_le (hpc : s.pc.toNat + 1 < 4096) (hslots : ∀ k : Fin 16, s.stack[k].toNat ≤ 0x1000) :
    pcAfter s ≤ 0x10FE := by
  have hret := stack_getD_le hslots (s.sp.val - 1)
  have hv0 := (s.readV 0).isLt
  rw [pcAfter]
  dsimp only
  split
  case h_7 nnn _ | h_8 nnn _ | h_10 nnn _ =>
    have := nnn.isLt
    omega
  case h_9 | h_12 => omega
  all_goals split_ifs <;> omega

theorem exec_next_slots {b : Nat} (hpc : s.pc.toNat ≤ b) (hslots : ∀ k : Fin 16, s.stack[k].toNat ≤ b)
    (h : exec i s = .next t) (k : Fin 16) : t.stack[k].toNat ≤ b := by
  obtain hk | hk := exec_next_stack h k
  · exact hk ▸ hslots k
  · exact hk ▸ hpc

/-- Settles O15: memory by the writes, pc by the table of R19, and a stack slot as an old one or the return address of a
call, which is at most 0x1000 since the call was fetched. -/
theorem stepKeepsInvariant : Obligations.StepKeepsInvariant := by
  intro s t hinv h
  have hbound : t.pc.toNat ≤ 0x10FE := by
    rw [pcAfterEveryOkStep s t h]
    exact pcAfter_le (step_eq_next.mp h).1 hinv.slots
  obtain ⟨hpc, ⟨i, u, hi, hu, rfl⟩ | ⟨w, hw, rfl⟩⟩ := step_next_cases h
  · have hadv : s.advance.pc.toNat ≤ 0x1000 := by
      rw [State.advance_pc_toNat hpc]
      omega
    exact ⟨exec_next_mem_wf (s := s.advance) (t := u) hinv.memory hu, hbound,
      exec_next_slots (s := s.advance) (t := u) hadv hinv.slots hu⟩
  · exact ⟨hinv.memory, hbound, hinv.slots⟩

/-! ### The host (R129) -/

theorem State.load_of_le {image : List Byte} (h : image.length ≤ 3584) :
    s.load image = .ok (s.setMem (s.mem.writeBytes 0x200 image)) :=
  if_neg (Nat.not_lt.mpr h)

theorem State.load_of_gt {image : List Byte} (h : 3584 < image.length) : s.load image = .error .tooLarge :=
  if_pos h

theorem serve_load_of_le (font : Font) {image : List Byte} (h : image.length ≤ 3584) :
    serve font (.load image) s = (.ok, s.setMem (s.mem.writeBytes 0x200 image)) := by
  rw [serve, State.load_of_le h]

theorem serve_load_of_gt (font : Font) {image : List Byte} (h : 3584 < image.length) :
    serve font (.load image) s = (.loadError .tooLarge, s) := by
  rw [serve, State.load_of_gt h]

/-- Every call of the host keeps the invariant. -/
theorem serve_inv (font : Font) (c : HostCall) (hinv : s.Inv) : (serve font c s).2.Inv := by
  cases c with
  | construct => exact ⟨State.construct_mem_wf font, (State.construct_inv font).pc, (State.construct_inv font).slots⟩
  | load image =>
    by_cases hlen : image.length ≤ 3584
    · rw [serve_load_of_le font hlen]
      exact ⟨Memory.wf_writeBytes hinv.memory image (by omega), hinv.pc, hinv.slots⟩
    · rwa [serve_load_of_gt font (Nat.lt_of_not_le hlen)]
  | step =>
    cases hstep : step s with
    | next t =>
      rw [serve, hstep]
      exact stepKeepsInvariant s t hinv hstep
    | fault f => rwa [serve, hstep]
    | refused r => rwa [serve, hstep]
  | setKey k p => exact ⟨hinv.memory, hinv.pc, hinv.slots⟩
  | framebuffer | delayTimer | soundTimer => exact hinv

/-- Settles O16: by induction over the host's calls. -/
theorem reachableMeetsInvariant : Obligations.ReachableMeetsInvariant := by
  intro font s hs
  induction hs with
  | construct => exact State.construct_inv font
  | call c s _ ih => exact serve_inv font c ih

/-! ### The timers (R70) -/

theorem exec_next_dt (h : exec i s = .next t) (hi : ∀ x, i ≠ .ldDTVx x) : t.dt = s.dt := by
  refine part_same_of_exec_next h (p := .delay) ?_
  cases i with
  | ldDTVx x => exact absurd rfl (hi x)
  | _ => simp [partsWritten]

theorem exec_next_st (h : exec i s = .next t) (hi : ∀ x, i ≠ .ldSTVx x) : t.st = s.st := by
  refine part_same_of_exec_next h (p := .sound) ?_
  cases i with
  | ldSTVx x => exact absurd rfl (hi x)
  | _ => simp [partsWritten]

/-- Settles O9: the tick's value is one below what the execute stage left, and that stage leaves a timer alone unless it
writes it. -/
theorem everyOkStepTicksBothTimers : Obligations.EveryOkStepTicksBothTimers := by
  refine fun s => ⟨fun t h => ?_, fun font f hf => ?_⟩
  · obtain ⟨-, ⟨i, u, hi, hu, rfl⟩ | ⟨w, hw, rfl⟩⟩ := step_next_cases h
    · rw [State.tick_dt, State.tick_st, tickTimer_toNat, tickTimer_toNat, hi]
      refine ⟨?_, ?_, fun x hx => ?_⟩
      · cases i with
        | ldDTVx x => rw [exec_next hu]; rfl
        | _ => rw [exec_next_dt hu (by simp)]; rfl
      · cases i with
        | ldSTVx x => rw [exec_next hu]; rfl
        | _ => rw [exec_next_st hu (by simp)]; rfl
      · obtain rfl := Fetched.instr.inj hx
        rw [exec_next hu]
        exact State.readV_writeV_same _ x s.dt
    · rw [hw]
      exact ⟨tickTimer_toNat s.dt, tickTimer_toNat s.st, nofun⟩
  · rw [serve, hf]
    exact ⟨rfl, rfl⟩

end Sys2Proof.Machine
end

section
/-! What no instruction, or only its named readers, can observe (R22, R24, R25, R28). One law carries all four: the execute
stage commutes with replacing the keypad, the count of draws, ST or the stack's slots, for every instruction to which what
is replaced is hidden. -/

namespace Sys2Proof.Machine

open Sys2Proof

/-- Values that replace some of the parts few instructions touch; a part that is `none` keeps its own. -/
structure Overlay where
  key : Option (Vector Bool 16) := none
  draws : Option Nat := none
  st : Option Byte := none
  stack : Option (Vector Word 16) := none

/-- The state with the replaced parts. -/
def State.overlay (s : State) (o : Overlay) : State :=
  { s with key := o.key.getD s.key, draws := o.draws.getD s.draws, st := o.st.getD s.st, stack := o.stack.getD s.stack }

/-- An overlay is hidden from an instruction when it replaces nothing the instruction reads or writes. -/
def Overlay.HiddenFrom (o : Overlay) : Instr → Prop
  | .skp _ | .sknp _ | .ldVxK _ => o.key = none
  | .rnd _ _ => o.draws = none
  | .ldSTVx _ => o.st = none
  | .ret | .call _ => o.stack = none
  | _ => True

/-- Apply `g` to a next state; a fault has none. -/
def mapNext (g : State → State) : Result → Result
  | .next t => .next (g t)
  | .fault f => .fault f
  | .refused r => .refused r

variable {i : Instr} {s t u : State} {o : Overlay} {f : Fault}

/-! ### The operations under an overlay -/

theorem State.overlay_skipIf (s : State) (o : Overlay) (c : Bool) :
    (s.overlay o).skipIf c = (s.skipIf c).overlay o := by
  rw [State.skipIf_eq, State.skipIf_eq]
  rfl

theorem State.overlay_loadBlock (base count r : Nat) (s : State) (o : Overlay) :
    State.loadBlock base r count (s.overlay o) = (State.loadBlock base r count s).overlay o := by
  induction count generalizing r s with
  | zero => rfl
  | succ n ih => exact ih (r + 1) (s.writeV (BitVec.ofNat 4 r) (s.mem.read (base + r)))

theorem eq_mapNext_of_next {r r' : Result} (h : r = .next t) (h' : r' = .next (t.overlay o)) :
    r' = mapNext (State.overlay · o) r := by
  rw [h, h']
  rfl

theorem eq_mapNext_of_fault {r r' : Result} (h : r = .fault f) (h' : r' = .fault f) :
    r' = mapNext (State.overlay · o) r := by
  rw [h, h']
  rfl

/-- The execute stage commutes with an overlay that is hidden from the instruction. -/
theorem exec_overlay (ho : o.HiddenFrom i) : exec i (s.overlay o) = mapNext (State.overlay · o) (exec i s) := by
  cases i with
  | seImm | sneImm | seReg | sneReg => exact congrArg Host.Outcome.next (s.overlay_skipIf o _)
  | skp x =>
    obtain ⟨key, draws, st, slots⟩ := o
    obtain rfl : key = none := ho
    by_cases hx : (s.readV x).toNat < 16
    · refine eq_mapNext_of_next (exec_skp_of_lt hx) ?_
      rw [exec_skp_of_lt (s := s.overlay _) hx, State.overlay_skipIf]
      rfl
    · exact eq_mapNext_of_fault (exec_skp_of_ge (Nat.le_of_not_lt hx)) (exec_skp_of_ge (Nat.le_of_not_lt hx))
  | sknp x =>
    obtain ⟨key, draws, st, slots⟩ := o
    obtain rfl : key = none := ho
    by_cases hx : (s.readV x).toNat < 16
    · refine eq_mapNext_of_next (exec_sknp_of_lt hx) ?_
      rw [exec_sknp_of_lt (s := s.overlay _) hx, State.overlay_skipIf]
      rfl
    · exact eq_mapNext_of_fault (exec_sknp_of_ge (Nat.le_of_not_lt hx)) (exec_sknp_of_ge (Nat.le_of_not_lt hx))
  | ldVxK x =>
    obtain ⟨key, draws, st, slots⟩ := o
    obtain rfl : key = none := ho
    cases hlow : lowestPressed s.key with
    | none => exact eq_mapNext_of_next (exec_ldVxK_of_none x hlow) (exec_ldVxK_of_none x hlow)
    | some k => exact eq_mapNext_of_next (exec_ldVxK_of_some x hlow) (exec_ldVxK_of_some x hlow)
  | call nnn =>
    obtain ⟨key, draws, st, slots⟩ := o
    obtain rfl : slots = none := ho
    by_cases hsp : s.sp.val < 16
    · exact eq_mapNext_of_next (execCall_of_lt hsp nnn) (execCall_of_lt (s := s.overlay _) hsp nnn)
    · have hfull : s.sp.val = 16 := by omega
      exact eq_mapNext_of_fault (execCall_of_full hfull nnn) (execCall_of_full (s := s.overlay _) hfull nnn)
  | ret =>
    obtain ⟨key, draws, st, slots⟩ := o
    obtain rfl : slots = none := ho
    by_cases hsp : 0 < s.sp.val
    · exact eq_mapNext_of_next (execRet_of_pos hsp) (execRet_of_pos (s := s.overlay _) hsp)
    · have hempty : s.sp.val = 0 := by omega
      exact eq_mapNext_of_fault (execRet_of_empty hempty) (execRet_of_empty (s := s.overlay _) hempty)
  | ldB x =>
    by_cases h : s.i.toNat + 2 < 4096
    · exact eq_mapNext_of_next (exec_ldB_of_lt h) (exec_ldB_of_lt h)
    · exact eq_mapNext_of_fault (exec_ldB_of_ge (Nat.le_of_not_lt h)) (exec_ldB_of_ge (Nat.le_of_not_lt h))
  | ldMemVx x =>
    by_cases h : s.i.toNat + x.toNat < 4096
    · exact eq_mapNext_of_next (exec_ldMemVx_of_lt h) (exec_ldMemVx_of_lt h)
    · exact eq_mapNext_of_fault (exec_ldMemVx_of_ge (Nat.le_of_not_lt h)) (exec_ldMemVx_of_ge (Nat.le_of_not_lt h))
  | ldVxMem x =>
    by_cases h : s.i.toNat + x.toNat < 4096
    · refine eq_mapNext_of_next (exec_ldVxMem_of_lt h) ?_
      rw [exec_ldVxMem_of_lt (s := s.overlay o) h, State.overlay_loadBlock]
      rfl
    · exact eq_mapNext_of_fault (exec_ldVxMem_of_ge (Nat.le_of_not_lt h)) (exec_ldVxMem_of_ge (Nat.le_of_not_lt h))
  | drw x y n =>
    by_cases h : n.toNat = 0 ∨ s.i.toNat + n.toNat ≤ 4096
    · exact eq_mapNext_of_next (execDrw_of_le h x y) (execDrw_of_le (s := s.overlay o) h x y)
    · obtain ⟨hn, hgt⟩ : n.toNat ≠ 0 ∧ 4096 < s.i.toNat + n.toNat := by omega
      exact eq_mapNext_of_fault (execDrw_of_gt hn hgt x y) (execDrw_of_gt (s := s.overlay o) hn hgt x y)
  | rnd x kk =>
    obtain ⟨key, draws, st, slots⟩ := o
    obtain rfl : draws = none := ho
    rfl
  | ldSTVx x =>
    obtain ⟨key, draws, st, slots⟩ := o
    obtain rfl : st = none := ho
    rfl
  | _ => rfl

theorem exec_overlay_next (ho : o.HiddenFrom i) (h : exec i s = .next t) :
    exec i (s.overlay o) = .next (t.overlay o) := by
  rw [exec_overlay ho, h]
  rfl

theorem exec_overlay_fault (ho : o.HiddenFrom i) (h : exec i s = .fault f) : exec i (s.overlay o) = .fault f := by
  rw [exec_overlay ho, h]
  rfl

/-! ### The keypad and the draws, at the execute stage -/

/-- Settles O21: a keypad that replaces the machine's is hidden from every instruction but its three readers. -/
theorem keypadReachesOnlyItsReaders : Obligations.KeypadReachesOnlyItsReaders := by
  intro i s keys hi
  have ho : Overlay.HiddenFrom { key := some keys } i := by
    cases i with
    | skp x | sknp x | ldVxK x => simp at hi
    | rnd | ldSTVx | ret | call => exact rfl
    | _ => trivial
  exact ⟨fun t h => exec_overlay_next ho h, fun f h => exec_overlay_fault ho h⟩

/-- Settles O22: Cxkk draws once, and another count of draws is hidden from every other instruction. -/
theorem drawReachesOnlyRnd : Obligations.DrawReachesOnlyRnd := by
  refine ⟨fun x kk s t h => congrArg State.draws (exec_next h), fun i s n hi => ?_⟩
  have ho : Overlay.HiddenFrom { draws := some n } i := by
    cases i with
    | rnd x kk => simp at hi
    | skp | sknp | ldVxK | ldSTVx | ret | call => exact rfl
    | _ => trivial
  exact ⟨fun t h => exec_overlay_next ho h, fun f h => exec_overlay_fault ho h⟩

/-! ### The sound timer and the stale stack slots, along a step -/

/-- Fx18 replaces whatever ST was (R114), and from any other instruction ST is hidden. -/
theorem exec_setST_next {b : Byte} (h : exec i s = .next t) : ∃ c, exec i (s.setST b) = .next (t.setST c) := by
  by_cases hst : ∃ x, i = .ldSTVx x
  · obtain ⟨x, rfl⟩ := hst
    cases h
    exact ⟨s.readV x, rfl⟩
  · have ho : Overlay.HiddenFrom { st := some b } i := by
      cases i with
      | ldSTVx x => simp at hst
      | skp | sknp | ldVxK | rnd | ret | call => exact rfl
      | _ => trivial
    exact ⟨b, exec_overlay_next ho h⟩

/-- Settles O23: ST occurs in no condition of the table of faults, and the tick of a next state writes ST from ST alone. -/
theorem soundTimerIsNeverRead : Obligations.SoundTimerIsNeverRead := by
  refine fun s b => ⟨fun f hf => step_fault_of_faultCondition_eq hf rfl, fun t h => ?_⟩
  obtain ⟨hpc, ⟨i, u, hi, hu, rfl⟩ | ⟨w, hw, rfl⟩⟩ := step_next_cases h
  · obtain ⟨c, hc⟩ := exec_setST_next (b := b) hu
    exact ⟨tickTimer c, step_of_exec_next (s := s.setST b) hpc hi hc⟩
  · exact ⟨tickTimer b, step_of_noOp (s := s.setST b) hpc hw⟩

theorem hiddenFrom_stack (slots : Vector Word 16) (hret : i ≠ .ret) (hcall : ∀ nnn, i ≠ .call nnn) :
    Overlay.HiddenFrom { stack := some slots } i := by
  cases i with
  | ret => exact absurd rfl hret
  | call nnn => exact absurd rfl (hcall nnn)
  | skp | sknp | ldVxK | rnd | ldSTVx => exact rfl
  | _ => trivial

/-- A call writes the slot at SP, a return reads the one below it, and from any other instruction the slots are hidden. -/
theorem exec_slots_next {slots : Vector Word 16} (hslots : ∀ k : Fin 16, k.val < s.sp.val → slots[k] = s.stack[k])
    (h : exec i s = .next t) :
    ∃ slots' : Vector Word 16, exec i { s with stack := slots } = .next { t with stack := slots' } ∧
      ∀ k : Fin 16, k.val < t.sp.val → slots'[k] = t.stack[k] := by
  cases i with
  | call nnn =>
    obtain ⟨hsp, rfl⟩ := execCall_next h
    refine ⟨slots.set s.sp.val s.pc hsp, execCall_of_lt (s := { s with stack := slots }) hsp nnn, fun k hk => ?_⟩
    simp only [Fin.getElem_fin, Vector.getElem_set]
    split_ifs with heq
    · rfl
    · exact hslots k (by simp at hk; omega)
  | ret =>
    obtain ⟨hsp, rfl⟩ := execRet_next h
    have htop : slots[s.sp.val - 1] = s.stack[s.sp.val - 1] :=
      hslots ⟨s.sp.val - 1, by omega⟩ (by simp; omega)
    refine ⟨slots, ?_, fun k hk => hslots k (by simp at hk; omega)⟩
    rw [← htop]
    exact execRet_of_pos (s := { s with stack := slots }) hsp
  | _ =>
    have hstack := part_same_of_exec_next h (p := .stack) (by simp [partsWritten])
    refine ⟨slots, exec_overlay_next (o := { stack := some slots }) (hiddenFrom_stack slots (by simp) (by simp)) h, ?_⟩
    rw [hstack.1, hstack.2]
    exact hslots

/-- Settles O24: no slot occurs in the table of faults; a next state is that of `exec_slots_next`, after the tick. -/
theorem staleStackSlotsAreNotObservable : Obligations.StaleStackSlotsAreNotObservable := by
  intro s slots hslots
  refine ⟨fun f hf => step_fault_of_faultCondition_eq hf rfl, fun t h => ?_⟩
  obtain ⟨hpc, ⟨i, u, hi, hu, rfl⟩ | ⟨w, hw, rfl⟩⟩ := step_next_cases h
  · obtain ⟨slots', hexec, hagree⟩ := exec_slots_next (s := s.advance) hslots hu
    exact ⟨slots', step_of_exec_next (s := { s with stack := slots }) hpc hi hexec, hagree⟩
  · exact ⟨slots, step_of_noOp (s := { s with stack := slots }) hpc hw, hslots⟩

end Sys2Proof.Machine
end

section
/-! Calls, returns and the offset jump (R75, R77, R82). -/

namespace Sys2Proof.Machine

open Sys2Proof

/-- Settles O26: the sum of two bytes' worth of words does not reach 65536, so it is exact. -/
theorem offsetJumpAddsV0 : Obligations.OffsetJumpAddsV0 := by
  intro nnn s
  exact ⟨encodedAs_row (Laws.RowMatch.jpV0 nnn), _, rfl, jpV0_target_toNat (s.readV 0) nnn, changesOnly_setPc s _⟩

/-- Settles O27: below depth 16 the push writes the slot at SP and no other. -/
theorem callPushesReturnAddress : Obligations.CallPushesReturnAddress := by
  intro nnn s
  refine ⟨encodedAs_row (Laws.RowMatch.call nnn), fun h => ?_, fun h => execCall_of_full h nnn⟩
  refine ⟨_, execCall_of_lt h nnn, Vector.getElem_set_self h, fun k hk => ?_, rfl, addrOperand_toNat nnn,
    changesOnly_stack_pc s _ _ _⟩
  exact Vector.getElem_set_ne h k.isLt (Ne.symm hk)

/-- Settles O28: a pop reads the slot below SP and writes none. -/
theorem returnPopsIntoPc : Obligations.ReturnPopsIntoPc := by
  intro s
  exact ⟨encodedAs_row Laws.RowMatch.ret,
    fun h => ⟨_, execRet_of_pos h, rfl, rfl, rfl, changesOnly_stack_pc s s.stack _ _⟩, fun h => execRet_of_empty h⟩

/-- Settles O29: the slot a return reads is the one the call wrote, and the slots below it are as before the call. -/
theorem returnUndoesCall : Obligations.ReturnUndoesCall := by
  intro nnn s t u ht hstack hsp
  obtain ⟨hs, rfl⟩ := execCall_next ht
  have hdepth : u.sp.val = s.sp.val + 1 := congrArg Fin.val hsp
  have hpos : 0 < u.sp.val := by omega
  refine ⟨_, execRet_of_pos hpos, ?_, Fin.ext (Nat.sub_eq_of_eq_add hdepth), fun k hk => ?_⟩
  · simp [hdepth, hstack]
  · simp only [hstack, Fin.getElem_fin]
    exact Vector.getElem_set_ne hs k.isLt (Nat.ne_of_gt hk)

end Sys2Proof.Machine
end

section
/-! The random draw, the glyph address, the keypad and the timers (R95, R98, R109 to R114), and the host's calls on them
(R129 to R131). -/

namespace Sys2Proof.Machine

open Sys2Proof

variable {s t : State} {x : Nibble}

/-- Settles O37: the byte drawn is masked and written; a mask of 0 leaves 0. -/
theorem randomByteIsMasked : Obligations.RandomByteIsMasked := by
  intro x kk s
  have hread : (s.drawRandom.2.writeV x (s.drawRandom.1 &&& kk)).readV x = Config.randomByte s.draws &&& kk :=
    State.readV_writeV_same _ x _
  refine ⟨encodedAs_row (Laws.RowMatch.rnd x kk), _, rfl, hread, fun hkk => ?_, rfl, regsSameBut_writeV s.drawRandom.2 x _,
    partsChangeOnlyAsListed (.rnd x kk) s _ rfl⟩
  exact hread.trans (by rw [hkk]; exact BitVec.and_zero)

/-- Settles O39: the glyph address of any byte is below 65536, so it is exact. -/
theorem glyphAddressIsNotClamped : Obligations.GlyphAddressIsNotClamped := by
  intro x s
  exact ⟨encodedAs_row (Laws.RowMatch.ldF x), _, rfl, glyphAddr_toNat (s.readV x), changesOnly_setI s _⟩

/-! ### The keypad -/

theorem State.skipIf_not_pc (s : State) (c : Bool) : (s.skipIf !c).pc = if c = true then s.pc else s.pc + 2 := by
  cases c <;> rfl

/-- Settles O49: below 16 each is a conditional skip on the key's level, and above it both fault. -/
theorem keySkipsTestOneKey : Obligations.KeySkipsTestOneKey := by
  intro x s
  refine ⟨encodedAs_row (Laws.RowMatch.skp x), encodedAs_row (Laws.RowMatch.sknp x), fun h => ⟨?_, ?_⟩,
    fun h => ⟨exec_skp_of_ge h, exec_sknp_of_ge h⟩⟩
  · exact ⟨_, exec_skp_of_lt h, by rw [State.skipIf_eq], changesOnly_skipIf s _⟩
  · exact ⟨_, exec_sknp_of_lt h, s.skipIf_not_pc _, changesOnly_skipIf s _⟩

/-- One step at an Fx0A with no key pressed: the advance is undone, and the timers tick (R74). -/
theorem step_of_key_wait (hpc : s.pc.toNat + 1 < 4096) (hi : decode s.wordAtPc = .instr (.ldVxK x))
    (hkey : ∀ k : Fin 16, s.key[k] = false) : step s = .next s.tick := by
  have hexec : exec (.ldVxK x) s.advance = .next s := by
    rw [exec_ldVxK_of_none (s := s.advance) x (lowestPressed_eq_none.mpr hkey)]
    calc Host.Outcome.next (s.advance.setPc s.advance.instrAddr) = .next (s.advance.setPc s.pc) := by
          rw [State.instrAddr_advance]
      _ = .next s := rfl
  exact step_of_exec_next hpc hi hexec

/-- Settles O51: each step comes back to the same word with the same keys, and moves the timers only. -/
theorem keyWaitRepeats : Obligations.KeyWaitRepeats := by
  intro x s hpc hi hkey steps
  induction steps generalizing s with
  | zero => exact ⟨s, rfl, rfl, rfl, ChangesOnly.refl s⟩
  | succ n ih =>
    rw [core_run_of_next (step_of_key_wait hpc hi hkey)]
    obtain ⟨t, hrun, hdt, hst, hframe⟩ := ih s.tick hpc hi hkey
    refine ⟨t, hrun, ?_, ?_, ?_⟩
    · rw [hdt, State.tick_dt, tickTimer_toNat]
      omega
    · rw [hst, State.tick_st, tickTimer_toNat]
      omega
    · exact ((changesOnly_tick s).trans hframe).mono (by simp)

/-! ### The timers -/

/-- Settles O52: a register read of DT, or one write of a timer. -/
theorem timerAccess : Obligations.TimerAccess := by
  intro x s
  refine ⟨encodedAs_row (Laws.RowMatch.ldVxDT x), encodedAs_row (Laws.RowMatch.ldDTVx x),
    encodedAs_row (Laws.RowMatch.ldSTVx x), ?_, ?_, ?_⟩
  · exact ⟨_, rfl, s.readV_writeV_same x s.dt, regsSameBut_writeV s x _, changesOnly_writeV s x _⟩
  · exact ⟨_, rfl, rfl, changesOnly_setDT s _⟩
  · exact ⟨_, rfl, rfl, changesOnly_setST s _⟩

/-- Settles O53: Fx15's step leaves DT one below v, and the next step reads it before its own tick. -/
theorem delayReadBackIsOneLess : Obligations.DelayReadBackIsOneLess := by
  intro x y s t u hst htu hx hy
  obtain ⟨hdt, -, -⟩ := (everyOkStepTicksBothTimers s).1 t hst
  obtain ⟨-, -, hread⟩ := (everyOkStepTicksBothTimers t).1 u htu
  rw [hread y hy, hdt, hx]

/-- Settles O56: `set_key` is one write of the keypad, and each read answers its field. -/
theorem hostKeyAndReads : Obligations.HostKeyAndReads := by
  refine fun font s => ⟨fun k j p => ?_, fun k p => changesOnly_setKey s k p, rfl, rfl, rfl⟩
  simp only [serve, State.setKey_key, Fin.getElem_fin, Vector.getElem_set, Fin.ext_iff, eq_comm]

end Sys2Proof.Machine
end

section
/-! Stores, loads and fetches (R40, R43, R99 to R101, R138): what memory or a register reads after each, as one byte of the
bytes stored or loaded. -/

namespace Sys2Proof.Machine

open Sys2Proof

variable {s t u : State} {x : Nibble}

/-! ### One write of a byte sequence -/

theorem memorySameOutside_setMem {bs : List Byte} {base : Nat} (hs : s.mem.wf = true) (hle : base + bs.length ≤ 4096) :
    MemorySameOutside base bs.length s (s.setMem (s.mem.writeBytes base bs)) :=
  fun a ha => by rw [State.setMem_mem, Memory.read_writeBytes hs bs hle, if_neg ha]

/-- Byte j of a sequence written from `base` is at `base + j`. -/
theorem Memory.read_writeBytes_add {m : Memory} (hm : m.wf = true) {bs : List Byte} {base j : Nat}
    (hle : base + bs.length ≤ 4096) (hj : j < bs.length) : (m.writeBytes base bs).read (base + j) = bs.getD j 0 := by
  rw [Memory.read_writeBytes hm bs hle, if_pos (by omega), Nat.add_sub_cancel_left]

/-! ### The decimal digits (R99) -/

theorem hundreds_toNat (b : Byte) : ((bcdDigits b).getD 0 0).toNat = b.toNat / 100 := by
  have := b.isLt
  simp only [bcdDigits, List.getD_cons_zero, BitVec.toNat_ofNat]
  omega

theorem tens_toNat (b : Byte) : ((bcdDigits b).getD 1 0).toNat = b.toNat / 10 % 10 := by
  simp only [bcdDigits, List.getD_cons_succ, List.getD_cons_zero, BitVec.toNat_ofNat]
  omega

theorem ones_toNat (b : Byte) : ((bcdDigits b).getD 2 0).toNat = b.toNat % 10 := by
  simp only [bcdDigits, List.getD_cons_succ, List.getD_cons_zero, BitVec.toNat_ofNat]
  omega

/-- Settles O40: the three bytes are the digits, one by one. -/
theorem bcdStoresDigits : Obligations.BcdStoresDigits := by
  intro x s hs
  refine ⟨encodedAs_row (Laws.RowMatch.ldB x), fun h => ?_, exec_ldB_of_ge⟩
  have hle : s.i.toNat + (bcdDigits (s.readV x)).length ≤ 4096 := h
  have hread (j : Nat) (hj : j < 3) :
      (s.mem.writeBytes s.i.toNat (bcdDigits (s.readV x))).read (s.i.toNat + j) = (bcdDigits (s.readV x)).getD j 0 :=
    Memory.read_writeBytes_add hs hle hj
  refine ⟨_, exec_ldB_of_lt h, ?_, ?_, ?_, memorySameOutside_setMem hs hle, changesOnly_setMem s _⟩
  · exact (congrArg BitVec.toNat (hread 0 (by decide))).trans (hundreds_toNat _)
  · exact (congrArg BitVec.toNat (hread 1 (by decide))).trans (tens_toNat _)
  · exact (congrArg BitVec.toNat (hread 2 (by decide))).trans (ones_toNat _)

/-! ### Blocks (R100, R101) -/

/-- Byte r of a block stored from `I` is V[r]. -/
theorem Memory.read_writeBytes_blockBytes (hs : s.mem.wf = true) (h : s.i.toNat + x.toNat < 4096) {r : Nibble}
    (hr : r.toNat ≤ x.toNat) :
    (s.mem.writeBytes s.i.toNat (s.blockBytes x)).read (s.i.toNat + r.toNat) = s.readV r := by
  have hlen := s.blockBytes_length x
  rw [Memory.read_writeBytes_add hs (by omega) (by omega), State.blockBytes_getD s x r hr]

/-- Settles O41: byte r of the block is V[r]. -/
theorem blockStoreWritesRegisters : Obligations.BlockStoreWritesRegisters := by
  intro x s hs
  refine ⟨encodedAs_row (Laws.RowMatch.ldMemVx x), fun h => ?_, exec_ldMemVx_of_ge⟩
  have hframe := memorySameOutside_setMem (bs := s.blockBytes x) hs
    (show s.i.toNat + (s.blockBytes x).length ≤ 4096 by rw [State.blockBytes_length]; omega)
  rw [State.blockBytes_length] at hframe
  exact ⟨_, exec_ldMemVx_of_lt h, fun r hr => Memory.read_writeBytes_blockBytes hs h hr, hframe, changesOnly_setMem s _⟩

/-- What a register reads after Fx65. -/
theorem readV_of_exec_ldVxMem (h : exec (.ldVxMem x) s = .next t) (r : Nibble) :
    t.readV r = if r.toNat ≤ x.toNat then s.mem.read (s.i.toNat + r.toNat) else s.readV r := by
  rw [exec_next h, State.readV_loadBlock _ _ _ _ _ (by rw [blockCount_eq]; omega)]
  simp only [blockCount_eq, State.indexAddr_eq, Nat.add_zero, Nat.zero_le, Nat.zero_add, true_and, Nat.lt_succ_iff]

/-- Settles O42: registers up to x by the load, and those above it as before. -/
theorem blockLoadReadsRegisters : Obligations.BlockLoadReadsRegisters := by
  intro x s
  refine ⟨encodedAs_row (Laws.RowMatch.ldVxMem x), fun h => ?_, exec_ldVxMem_of_ge⟩
  have hexec := exec_ldVxMem_of_lt (s := s) h
  refine ⟨_, hexec, fun r hr => ?_, fun r hr => ?_, changesOnly_loadBlock _ _ _ s⟩
  · rw [readV_of_exec_ldVxMem hexec, if_pos hr]
  · rw [readV_of_exec_ldVxMem hexec, if_neg (Nat.not_le.mpr hr)]

/-- What memory a block store that ended has left, and that its range was in memory. -/
theorem exec_ldMemVx_next (h : exec (.ldMemVx x) s = .next t) :
    s.i.toNat + x.toNat < 4096 ∧ t.mem = s.mem.writeBytes s.i.toNat (s.blockBytes x) := by
  by_cases hlt : s.i.toNat + x.toNat < 4096
  · exact ⟨hlt, congrArg State.mem (exec_next h)⟩
  · rw [exec_ldMemVx_of_ge (Nat.le_of_not_lt hlt)] at h
    cases h

theorem exec_ldB_next (h : exec (.ldB x) s = .next t) :
    s.i.toNat + 2 < 4096 ∧ t.mem = s.mem.writeBytes s.i.toNat (bcdDigits (s.readV x)) := by
  by_cases hlt : s.i.toNat + 2 < 4096
  · exact ⟨hlt, congrArg State.mem (exec_next h)⟩
  · rw [exec_ldB_of_ge (Nat.le_of_not_lt hlt)] at h
    cases h

/-- Settles O43: the load reads the bytes the store wrote, at the same addresses. -/
theorem blockLoadUndoesBlockStore : Obligations.BlockLoadUndoesBlockStore := by
  intro x s t u hs ht humem hui
  obtain ⟨hlt, hmem⟩ := exec_ldMemVx_next ht
  have hexec := exec_ldVxMem_of_lt (s := u) (x := x) (by rwa [hui])
  refine ⟨_, hexec, fun r hr => ?_⟩
  rw [readV_of_exec_ldVxMem hexec, if_pos hr, humem, hui, hmem, Memory.read_writeBytes_blockBytes hs hlt hr]

/-! ### The fetch after a store (R40, R47) -/

/-- A fetch inside a written byte sequence reads two of its bytes, high byte first. -/
theorem fetch_of_writeBytes {m : Memory} (hm : m.wf = true) {bs : List Byte} {base j : Nat} (hle : base + bs.length ≤ 4096)
    (hj : j + 1 < bs.length) (hmem : u.mem = m.writeBytes base bs) (hpc : u.pc.toNat = base + j) :
    u.fetch = .ok (wordOfBytes (bs.getD j 0) (bs.getD (j + 1) 0)) := by
  rw [State.fetch_of_lt (by omega), State.wordAtPc, hmem, hpc, Memory.read_writeBytes_add hm hle (by omega), add_assoc,
    Memory.read_writeBytes_add hm hle hj]

theorem Nibble.toNat_add_one {r x : Nibble} (h : r.toNat < x.toNat) : (r + 1).toNat = r.toNat + 1 := by
  have := x.isLt
  rw [BitVec.toNat_add]
  simp only [BitVec.ofNat_eq_ofNat, BitVec.toNat_ofNat]
  omega

theorem fetch_of_blockStore {r : Nibble} (hs : s.mem.wf = true) (ht : exec (.ldMemVx x) s = .next t) (humem : u.mem = t.mem)
    (hr : r.toNat < x.toNat) (hpc : u.pc.toNat = s.i.toNat + r.toNat) :
    u.fetch = .ok (wordOfBytes (s.readV r) (s.readV (r + 1))) := by
  obtain ⟨hlt, hmem⟩ := exec_ldMemVx_next ht
  have hlen := s.blockBytes_length x
  have hsucc := Nibble.toNat_add_one hr
  rw [fetch_of_writeBytes hs (by omega) (by omega) (humem.trans hmem) hpc, s.blockBytes_getD x r hr.le, ← hsucc,
    s.blockBytes_getD x (r + 1) (by omega)]

/-- Settles O44: a fetch from the first byte but the last of each of the three sequences. -/
theorem fetchSeesStores : Obligations.FetchSeesStores := by
  refine ⟨fun x r s t u hs ht humem hr hpc => fetch_of_blockStore hs ht humem hr hpc,
    fun x s t u hs ht humem => ?_, fun image j s t u hs ht humem hj hpc => ?_⟩
  · obtain ⟨hlt, hmem⟩ := exec_ldB_next ht
    have hfetch (j : Nat) (hj : j + 1 < 3) (hpc : u.pc.toNat = s.i.toNat + j) :=
      fetch_of_writeBytes hs (bs := bcdDigits (s.readV x)) hlt hj (humem.trans hmem) hpc
    refine ⟨fun hpc => ⟨_, hfetch 0 (by decide) hpc, ?_⟩, fun hpc => ⟨_, hfetch 1 (by decide) hpc, ?_⟩⟩
    · rw [highByte_wordOfBytes, lowByte_wordOfBytes]
      exact ⟨hundreds_toNat _, tens_toNat _⟩
    · rw [highByte_wordOfBytes, lowByte_wordOfBytes]
      exact ⟨tens_toNat _, ones_toNat _⟩
  · by_cases hlen : image.length ≤ 3584
    · rw [State.load_of_le hlen] at ht
      cases ht
      exact fetch_of_writeBytes hs (by omega) hj humem hpc
    · rw [State.load_of_gt (Nat.lt_of_not_le hlen)] at ht
      cases ht

/-! ### The host's load and its placement of a word (R138; log entry 6) -/

/-- Settles O55: an image that fits is one write of its bytes at 0x200. -/
theorem loadCopiesOrRejects : Obligations.LoadCopiesOrRejects := by
  intro font image s hs
  refine ⟨fun h => ?_, serve_load_of_gt font⟩
  have hle : 0x200 + image.length ≤ 4096 := by omega
  exact ⟨_, serve_load_of_le font h, fun j hj => Memory.read_writeBytes_add hs hle hj,
    memorySameOutside_setMem hs hle, changesOnly_setMem s _⟩

theorem State.withFetchWord_16 (s : State) (w : Nat) : s.withFetchWord 16 w = s.placeWord (BitVec.ofNat 16 w) := by
  rw [State.withFetchWord, show BitVec.ofNat 16 (w % 2 ^ 16) = BitVec.ofNat 16 w from BitVec.eq_of_toNat_eq (by simp)]

theorem State.placeWord_of_lt (h : s.pc.toNat + 1 < 4096) (w : Word) :
    s.placeWord w = s.setMem (s.mem.writeBytes s.pc.toNat [highByte w, lowByte w]) := by
  rw [State.placeWord, if_pos ((inRange_iff _ _).mpr (by omega))]

theorem State.placeWord_of_ge (h : 4096 ≤ s.pc.toNat + 1) (w : Word) :
    s.placeWord w = (s.setPc 0x200).setMem (s.mem.writeBytes 0x200 [highByte w, lowByte w]) := by
  rw [State.placeWord, if_neg (by simp only [inRange_iff]; omega)]
  rfl

/-- A word stored high byte first at pc is the next one fetched (R40). -/
theorem fetch_of_writeBytes_word {m : Memory} (hm : m.wf = true) {w : Word} (hpc : u.pc.toNat + 1 < 4096)
    (hmem : u.mem = m.writeBytes u.pc.toNat [highByte w, lowByte w]) : u.fetch = .ok w := by
  have hfetch := fetch_of_writeBytes hm (bs := [highByte w, lowByte w]) (j := 0) hpc Nat.one_lt_two hmem rfl
  rwa [List.getD_cons_zero, List.getD_cons_succ, List.getD_cons_zero, wordOfBytes_high_low] at hfetch

theorem memorySameOutside_word {base : Nat} (hs : s.mem.wf = true) (hle : base + 2 ≤ 4096) (w : Word) :
    MemorySameOutside base 2 s (s.setMem (s.mem.writeBytes base [highByte w, lowByte w])) :=
  memorySameOutside_setMem (bs := [highByte w, lowByte w]) hs hle

/-- Settles O57: where a fetch is possible the word is written at pc, and elsewhere at 0x200 with pc put there. -/
theorem placedWordIsFetched : Obligations.PlacedWordIsFetched := by
  intro s w hs
  rw [State.withFetchWord_16]
  refine ⟨?_, fun h => ?_, fun h => ?_⟩
  · by_cases h : s.pc.toNat + 1 < 4096
    · rw [State.placeWord_of_lt h]
      exact fetch_of_writeBytes_word hs h rfl
    · rw [State.placeWord_of_ge (Nat.le_of_not_lt h)]
      exact fetch_of_writeBytes_word hs (show (0x200 : Word).toNat + 1 < 4096 by decide) rfl
  · rw [State.placeWord_of_lt h]
    exact ⟨changesOnly_setMem s _, memorySameOutside_word hs h _⟩
  · rw [State.placeWord_of_ge h]
    exact ⟨rfl, ((changesOnly_setPc s 0x200).trans (changesOnly_setMem (s.setPc 0x200) _)).mono (by simp),
      memorySameOutside_word (s := s.setPc 0x200) hs (by decide) _⟩

end Sys2Proof.Machine
end

section
/-! The sprite (R103 to R108): the cells and VF after a Dxyn by the sprite bit in closed form, and from them what two draws
of one sprite do, and what the draw of a digit lights. -/

namespace Sys2Proof.Machine

open Sys2Proof

variable {s t u w : State} {x y n : Nibble}

/-! ### One draw -/

theorem drawnCanvas_cell (s : State) (x y n : Nibble) (px : Fin 64) (py : Fin 32) :
    (drawnCanvas x y n s).cell px py = (s.cell px py ^^ spriteBit s x y n px py) :=
  Canvas.cell_drawRows _ _ _ _ _ _ _ px py

theorem drawnCanvas_collision (s : State) (x y n : Nibble) :
    (drawnCanvas x y n s).collision = true ↔ ∃ px py, s.cell px py = true ∧ spriteBit s x y n px py = true := by
  rw [drawnCanvas, Canvas.collision_drawRows]
  simp only [Bool.false_eq_true, false_or]
  rfl

/-- What a draw that ended has done to a cell (R106, R107). -/
theorem cell_of_exec_drw (h : exec (.drw x y n) s = .next t) (px : Fin 64) (py : Fin 32) :
    t.cell px py = (s.cell px py ^^ spriteBit s x y n px py) := by
  rw [exec_next h]
  exact drawnCanvas_cell s x y n px py

/-- What a draw that ended has left in VF (R106). -/
theorem vF_of_exec_drw (h : exec (.drw x y n) s = .next t) :
    t.readV 15 = if ∃ px py, s.cell px py = true ∧ spriteBit s x y n px py = true then 1 else 0 := by
  rw [exec_next h]
  refine (State.readV_writeV_same _ vF _).trans ?_
  simp only [flagByte, drawnCanvas_collision]

/-- A sprite whose set bits all fall on dark cells does not collide. -/
theorem vF_of_exec_drw_dark (h : exec (.drw x y n) s = .next t)
    (hdark : ∀ px py, spriteBit s x y n px py = true → s.cell px py = false) : t.readV 15 = 0 := by
  rw [vF_of_exec_drw h, if_neg]
  rintro ⟨px, py, hlit, hbit⟩
  rw [hdark px py hbit] at hlit
  cases hlit

/-- Settles O46: the canvas gives the cells and the collision, and the frames are the instruction's. -/
theorem drawTogglesExactlyTheSprite : Obligations.DrawTogglesExactlyTheSprite := by
  intro x y n s
  refine ⟨encodedAs_row (Laws.RowMatch.drw x y n), fun h => ?_, fun h0 h => ?_⟩
  · have hn : n.toNat = 0 ∨ s.i.toNat + n.toNat - 1 < 4096 := h.imp_left fun h0 => by rw [h0]; rfl
    have hexec := exec_drw_of_lt hn x y
    exact ⟨_, hexec, cell_of_exec_drw hexec, vF_of_exec_drw hexec, registersChangeOnlyAsListed _ _ _ hexec,
      partsChangeOnlyAsListed _ _ _ hexec⟩
  · exact exec_drw_of_ge (fun hn => h0 (BitVec.eq_of_toNat_eq hn)) h x y

/-! ### Two draws of one sprite (R108) -/

/-- The sprite depends on the two coordinates, on `I` and on the sprite's bytes alone. -/
theorem spriteBit_congr (hi : u.i = s.i) (hmem : ∀ r < n.toNat, u.mem.read (s.i.toNat + r) = s.mem.read (s.i.toNat + r))
    (hx : u.readV x = s.readV x) (hy : u.readV y = s.readV y) (px : Fin 64) (py : Fin 32) :
    spriteBit u x y n px py = spriteBit s x y n px py := by
  unfold spriteBit
  rw [hx, hy, hi]
  dsimp only
  by_cases hrow : py.val - (s.readV y).toNat % 32 < n.toNat
  · rw [hmem _ hrow]
  · rw [decide_eq_false (by omega), Bool.false_and, Bool.false_and]

theorem State.readV_congr (h : t.v = s.v) (r : Nibble) : t.readV r = s.readV r := by
  simp only [State.readV, h]

theorem State.cell_congr (h : t.fb = s.fb) (px : Fin 64) (py : Fin 32) : t.cell px py = s.cell px py := by
  simp only [State.cell, h]

theorem fb_eq_of_cell_eq (h : ∀ px py, t.cell px py = s.cell px py) : t.fb = s.fb :=
  Vector.ext fun px hpx => Vector.ext fun py hpy => h ⟨px, hpx⟩ ⟨py, hpy⟩

/-- Settles O47: a second draw with the same sprite bits toggles the same cells back, and where they were dark it finds
every one of them lit. -/
theorem drawingTwiceRestores : Obligations.DrawingTwiceRestores := by
  intro x y n s t u w ht hfb hi hmem hx hy hw
  have hsprite := spriteBit_congr hi hmem hx hy
  have htcell := cell_of_exec_drw ht
  have hucell := State.cell_congr hfb
  refine ⟨fun px py hbit => ?_, ?_, fun hdark => ⟨?_, ?_⟩⟩
  · rw [htcell, hbit, Bool.xor_false]
  · refine fb_eq_of_cell_eq fun px py => ?_
    rw [cell_of_exec_drw hw, hsprite, hucell, htcell, Bool.xor_assoc, Bool.xor_self, Bool.xor_false]
  · exact vF_of_exec_drw_dark ht hdark
  · have hlit (px : Fin 64) (py : Fin 32) (hbit : spriteBit s x y n px py = true) : u.cell px py = true := by
      rw [hucell, htcell, hdark px py hbit, hbit, Bool.false_xor]
    have hcollide (px : Fin 64) (py : Fin 32) :
        u.cell px py = true ∧ spriteBit u x y n px py = true ↔ spriteBit s x y n px py = true := by
      rw [hsprite]
      exact ⟨And.right, fun hbit => ⟨hlit px py hbit, hbit⟩⟩
    rw [vF_of_exec_drw hw]
    simp only [hcollide]

/-! ### The digits of the font (R36, R98) -/

/-- A set sprite bit as its row and its column (R104, R105). -/
theorem spriteBit_eq_true_iff {px : Fin 64} {py : Fin 32} :
    spriteBit s x y n px py = true ↔ ∃ r c, r < n.toNat ∧ c < 8 ∧ px.val = (s.readV x).toNat % 64 + c ∧
      py.val = (s.readV y).toNat % 32 + r ∧ (s.mem.read (s.i.toNat + r)).getLsbD (7 - c) = true := by
  simp only [spriteBit, Bool.and_eq_true, decide_eq_true_eq]
  constructor
  · rintro ⟨hin, hbit⟩
    exact ⟨py.val - (s.readV y).toNat % 32, px.val - (s.readV x).toNat % 64, by omega, by omega, by omega, by omega, hbit⟩
  · rintro ⟨r, c, hr, hc, hpx, hpy, hbit⟩
    rw [hpx, hpy, Nat.add_sub_cancel_left, Nat.add_sub_cancel_left]
    exact ⟨by omega, hbit⟩

/-- Settles O48: the draw's sprite bytes are the digit's five font bytes, and on a dark framebuffer the cells it toggles are
the cells it lights. -/
theorem digitIsDrawnFromTheFont : Obligations.DigitIsDrawnFromTheFont := by
  intro font x a b s t v d hd hfont hx hdark ht hmem hv hi hfb
  obtain rfl : s.setI (glyphAddr (s.readV x)) = t := Host.Outcome.next.inj ht
  have hvi : v.i.toNat = 0x050 + 5 * d := by
    rw [hi, ← hx]
    exact glyphAddr_toNat (s.readV x)
  have hreadV := State.readV_congr (s := s) hv
  have hglyph (r : Nat) (hr : r < 5) : v.mem.read (v.i.toNat + r) = font[5 * d + r] := by
    rw [hmem, hvi, add_assoc]
    exact hfont ⟨5 * d + r, by omega⟩
  have hvdark (px : Fin 64) (py : Fin 32) : v.cell px py = false :=
    (State.cell_congr (s := s) hfb px py).trans (hdark px py)
  have hrange : v.i.toNat + (5 : Nibble).toNat - 1 < 4096 := by
    rw [hvi, show (5 : Nibble).toNat = 5 from rfl]
    omega
  have hexec := exec_drw_of_lt (.inr hrange) a b
  refine ⟨_, hexec, ?_, fun px py => ?_⟩
  · exact vF_of_exec_drw_dark hexec fun px py _ => hvdark px py
  · rw [cell_of_exec_drw hexec, hvdark, Bool.false_xor, spriteBit_eq_true_iff]
    simp only [hreadV]
    constructor
    · rintro ⟨r, c, hr, hc, hpx, hpy, hbit⟩
      exact ⟨r, c, hr, hc, hpx, hpy, hglyph r hr ▸ hbit⟩
    · rintro ⟨r, c, hr, hc, hpx, hpy, hbit⟩
      exact ⟨r, c, hr, hc, hpx, hpy, (hglyph r hr).symm ▸ hbit⟩

end Sys2Proof.Machine
end
